-- ==== Sys2Proof/Word.lean ====
section
/-! DEFINITION. The two widths of the core (R6: REG8_WIDTH and DATA_WIDTH are 8, REG16_WIDTH and ADDR_WIDTH are 16).
Every value is an unsigned bit pattern and every sum wraps (R8, R139), which is BitVec's own arithmetic. -/

namespace Sys2Proof

/-- An 8-bit register, or the data of one memory transaction (R6, R21, R52). -/
abbrev Byte := BitVec 8

/-- A 16-bit register, a pair view, or an address; the address domain is exactly 0x0000 to 0xFFFF (R6, R50). -/
abbrev Word := BitVec 16

end Sys2Proof
end

