-- ==== Sys2Proof/Machine/Bits.lean ====
section
/-! DEFINITION. Byte order and sign extension (R8): the one place where two bytes become a 16-bit value and a 16-bit value
becomes two bytes. -/

namespace Sys2Proof.Machine

/-- R8: `zext_16(b)`. -/
def zext16 (b : Byte) : Word := b.setWidth 16

/-- R8: `sext_16(b)`, bits 15:8 all equal to b[7]. -/
def sext16 (b : Byte) : Word := b.signExtend 16

/-- R8: `cat(h, l)`, h in bits 15:8 and l in bits 7:0. -/
def cat (h l : Byte) : Word := (zext16 h <<< 8) ||| zext16 l

/-- R8: `v[15:8]`. -/
def hi (v : Word) : Byte := v.extractLsb' 8 8

/-- R8: `v[7:0]`. -/
def lo (v : Word) : Byte := v.extractLsb' 0 8

/-- R8: `v[3:0]` of a byte. -/
def lowNibble (b : Byte) : BitVec 4 := b.extractLsb' 0 4

end Sys2Proof.Machine
end

