-- ==== Sys2Proof/Config.lean ====
section
/-! DEFINITION. The parameters of the model (R6) and its free values: the AddressSpace the core is bound to, the F8_Z_POLICY,
and PREFIXED_PC_CONVENTION. The three other parameters of R6 are arguments: LaunchState (Machine/State.lean), acc0
(Machine/Executor.lean) and the opcode tables (Decode.lean, Machine/Executor.lean). -/

namespace Sys2Proof

/-- One call on the AddressSpace: `R(a)` or `W(a, v)` of R9. Each moves one byte (R52). -/
inductive Transaction
  /-- `get(a)` -/
  | read (a : Word)
  /-- `set(a, v)` -/
  | write (a : Word) (v : Byte)
  deriving DecidableEq, Repr

/-- The AddressSpace parameter (R53): which implementation of `get`/`set` the core is bound to.
`flatRam` is the reference instance FlatRAM (R54). `external k` is any other instance at all: instance number `k` of a family
about which nothing is known, so a claim about `external k` for every `k` holds for every backing store, the spec's
default `Oracle` among them. -/
inductive AddressSpace
  | flatRam
  | external (k : Nat)
  deriving DecidableEq, Repr

/-- FREE VALUE (log entry 2). What an `external` AddressSpace answers to a read: a function of the instance, of every earlier
transaction (newest first) and of the address, and nothing more is known of it (R53: "an instance answers each read from
the history of earlier transactions, the address and a free choice"; the free choice is the instance number). -/
opaque Config.externalRead : (k : Nat) → (history : List Transaction) → (a : Word) → Byte

/-- The parameter F8_Z_POLICY (R6): what LD HL,SP+e8 leaves in Z when its result is 0x0000. -/
inductive F8ZPolicy
  /-- Z is 0 whatever the result: the value the spec fixes. -/
  | cleared
  /-- Z is 1 exactly when the result is 0x0000: the alternative the spec only names. -/
  | resultZero
  deriving DecidableEq, Repr

/-- R6, R136: F8_Z_POLICY is `Cleared` (log entry 6). -/
def Config.f8ZPolicy : F8ZPolicy := .cleared

/-- FREE VALUE (log entry 9). The parameter PREFIXED_PC_CONVENTION (R6, OPEN): where PC stands when a prefixed Instruction
whose prefix byte is at `p` starts to execute. The extended table is empty (R88), so no step ever uses it. -/
opaque Config.prefixedPc : (p : Word) → Word

end Sys2Proof
end

