-- ==== Sys2Proof/Machine/State.lean ====
section
/-! DEFINITION. The state of the machine: the register file (R20), the contents behind the AddressSpace (R53, R54), the fault
record (R40), and the labels of a step (its Trace and its declared cycle count, R112, R113) with the history of earlier
transactions an AddressSpace answers from (R53). Reset is one launch state (R42, R200). -/

namespace Sys2Proof.Machine

/-- The bytes of FlatRAM (R54) as address and byte pairs, in the canonical form of Machine/Memory.lean. -/
abbrev Memory := List Host.Cell

/-- The one failure of the core (R180). -/
inductive FaultKind
  | unsupportedOpcode
  deriving DecidableEq, Repr

/-- R181: what UnsupportedOpcode records. `pc` is the address of the opcode byte (of the prefix byte for a prefixed opcode),
`opcode` the byte looked up, `isPrefixed` which table was asked. -/
structure FaultInfo where
  kind : FaultKind
  pc : Word
  opcode : Byte
  isPrefixed : Bool
  deriving DecidableEq, Repr

structure State where
  /-- A (R21, R22) -/
  a : Byte
  /-- F, the flags byte (R21, R23, R24) -/
  f : Byte
  /-- B (R21, R22) -/
  b : Byte
  /-- C, the register (R21, R22) -/
  c : Byte
  /-- D (R21, R22) -/
  d : Byte
  /-- E (R21, R22) -/
  e : Byte
  /-- H, the register (R21, R22) -/
  h : Byte
  /-- L (R21, R22) -/
  l : Byte
  /-- PC (R31) -/
  pc : Word
  /-- SP (R34) -/
  sp : Word
  /-- The AddressSpace the core is bound to (R53); nothing the core does changes it. -/
  space : AddressSpace
  /-- FlatRAM's contents (R54); an `external` AddressSpace has its own and leaves these alone. -/
  mem : Memory
  /-- The fault record (R40). -/
  fault : Option FaultInfo
  /-- Bookkeeping: every transaction before the ones in `trace`, newest first (R53, R60). -/
  past : List Transaction
  /-- Bookkeeping: the Trace (R9, R69) of the step in progress or last made, in the order made. -/
  trace : List Transaction
  /-- Bookkeeping: the declared cycle count the last step emitted (R112, R207); none if it emitted none. -/
  cycles : Option Nat
  deriving DecidableEq, Repr

/-- Why a step stops. Both come from the spec. -/
inductive Fault
  /-- Raised by `step` in a state whose fault record is set: UnsupportedOpcode is fatal and the state has no further step
  (R40, R112, R182). Safe: nothing more is claimed of such a run. -/
  | unsupportedOpcode (info : FaultInfo)
  /-- Raised by an Operation that reads a Context field no earlier Operation of the same execute set (R104). No reference
  Operation list reads the Context, so no step raises it. Safe. -/
  | contextUnset (field : Nat)
  deriving DecidableEq, Repr

/-- What the model gives no meaning. -/
inductive Refusal
  /-- Raised by `exec` for an instruction that has no meaning yet; no arm of this model does. Safe. -/
  | notModelled (mnemonic : String)
  /-- Raised by `hostAct` for a host access that overlaps a step (R190, R206: the core gives it no meaning). No step raises
  it. Safe. -/
  | hostAccessOverlapsStep
  deriving DecidableEq, Repr

/-- The parameter LaunchState (R6, R200): the register values, the AddressSpace and its initial contents at the first step. -/
structure LaunchState where
  a : Byte
  f : Byte
  b : Byte
  c : Byte
  d : Byte
  e : Byte
  h : Byte
  l : Byte
  pc : Word
  sp : Word
  space : AddressSpace
  mem : Memory
  deriving DecidableEq, Repr

/-- R42, R200, R203: the state at the first step. F[3:0] is 0 whatever the launch asks for, since every write to F is masked
(R23), and there is no fault. -/
def State.launch (x : LaunchState) : State where
  a := x.a
  f := x.f &&& 0xF0
  b := x.b
  c := x.c
  d := x.d
  e := x.e
  h := x.h
  l := x.l
  pc := x.pc
  sp := x.sp
  space := x.space
  mem := x.mem
  fault := none
  past := []
  trace := []
  cycles := none

/-- DESIGN CHOICE (log entry 1): the spec gives no register a reset value, so the one launch state of `State.reset` has every
register 0, FlatRAM as its AddressSpace, and nothing listed in memory. -/
def LaunchState.zero : LaunchState where
  a := 0
  f := 0
  b := 0
  c := 0
  d := 0
  e := 0
  h := 0
  l := 0
  pc := 0
  sp := 0
  space := .flatRam
  mem := []

/-- The machine right after reset: F[3:0] = 0 and no fault as R200 says, and the rest as log entry 1 says. -/
def State.reset : State := State.launch LaunchState.zero

/-- Every transaction so far, newest first: what an AddressSpace instance answers from (R53). -/
def State.history (s : State) : List Transaction := s.trace.reverse ++ s.past

end Sys2Proof.Machine
end

