-- ==== Sys2Proof/Machine/Operands.lean ====
section
/-! DEFINITION. The register operands: the eight 8-bit slots (R21, R22, R23), the pair views AF, BC, DE, HL and the 16-bit
registers SP and PC (R27, R28, R30). Every write of F goes through `State.setF`. -/

namespace Sys2Proof.Machine

/-- The eight 8-bit slots (R21). -/
inductive Reg8
  | a | f | b | c | d | e | h | l
  deriving DecidableEq, Repr

/-- The selectors `rr` an Operation is bound to (R109, R114). -/
inductive Pair
  | af | bc | de | hl | sp
  deriving DecidableEq, Repr

/-- R23: a write to F stores `v & 0xF0`. -/
def State.setF (s : State) (v : Byte) : State := { s with f := v &&& 0xF0 }

/-- R22, R25: the 8-bit get. -/
def State.getReg8 (s : State) : Reg8 → Byte
  | .a => s.a
  | .f => s.f
  | .b => s.b
  | .c => s.c
  | .d => s.d
  | .e => s.e
  | .h => s.h
  | .l => s.l

/-- R22, R23: the 8-bit set. -/
def State.setReg8 (s : State) (r : Reg8) (v : Byte) : State :=
  match r with
  | .a => { s with a := v }
  | .f => s.setF v
  | .b => { s with b := v }
  | .c => { s with c := v }
  | .d => { s with d := v }
  | .e => { s with e := v }
  | .h => { s with h := v }
  | .l => { s with l := v }

/-- R29, R34: the 16-bit set of SP. -/
def State.setSp (s : State) (v : Word) : State := { s with sp := v }

/-- R27, R109: reading a pair, high byte from the first-named register; SP has no halves (R30). -/
def State.getPair (s : State) : Pair → Word
  | .af => cat s.a s.f
  | .bc => cat s.b s.c
  | .de => cat s.d s.e
  | .hl => cat s.h s.l
  | .sp => s.sp

/-- R28, R109: writing a pair writes both its registers; AF masks F. -/
def State.setPair (s : State) (rr : Pair) (v : Word) : State :=
  match rr with
  | .af => { s with a := hi v }.setF (lo v)
  | .bc => { s with b := hi v, c := lo v }
  | .de => { s with d := hi v, e := lo v }
  | .hl => { s with h := hi v, l := lo v }
  | .sp => s.setSp v

/-- R29, R31: the 16-bit set of PC. -/
def State.setPc (s : State) (v : Word) : State := { s with pc := v }

end Sys2Proof.Machine
end

