-- ==== Sys2Proof/Machine/Flags.lean ====
section
/-! DEFINITION. The flags logic: the four flags in F[7:4] (R24), their predicates and single-bit writes (R25), and the flag
computation of a 16-bit value plus a signed byte (R111, R136, R138), the only one the admitted set has. -/

namespace Sys2Proof.Machine

/-- Zero, Subtract, Half-carry and Carry (R10, R24). -/
inductive Flag
  | z | n | h | c
  deriving DecidableEq, Repr

/-- R24: the bit of F that holds a flag (log entry 5). -/
def Flag.bit : Flag → Nat
  | .z => 7
  | .n => 6
  | .h => 5
  | .c => 4

/-- The byte with that one bit set. -/
def Flag.mask (x : Flag) : Byte := 1#8 <<< x.bit

/-- R25: a flag's predicate. -/
def State.flag (s : State) (x : Flag) : Bool := s.f.getLsbD x.bit

/-- R25: isZ. -/
def State.isZ (s : State) : Bool := s.flag .z

/-- R25: isN. -/
def State.isN (s : State) : Bool := s.flag .n

/-- R25: isH. -/
def State.isH (s : State) : Bool := s.flag .h

/-- R25: isC. -/
def State.isC (s : State) : Bool := s.flag .c

/-- R9, R25: writing one flag changes that bit of F and keeps the low nibble zero. -/
def State.setFlag (s : State) (x : Flag) (v : Bool) : State :=
  s.setF (if v then s.f ||| x.mask else s.f &&& ~~~x.mask)

/-- R138: H, the carry out of bit 3 of the unsigned low-byte addition. -/
def halfCarryLow (v : Word) (e : Byte) : Bool :=
  decide (0x10 ≤ (lowNibble (lo v)).toNat + (lowNibble e).toNat)

/-- R138: C, the carry out of bit 7 of the unsigned low-byte addition. -/
def carryLow (v : Word) (e : Byte) : Bool :=
  decide (0x100 ≤ (lo v).toNat + e.toNat)

/-- R138: the full sum with the signed byte, modulo 2^16. -/
def addSigned (v : Word) (e : Byte) : Word := v + sext16 e

/-- R136 under the parameter F8_Z_POLICY: Z for a result. -/
def f8Zero (policy : F8ZPolicy) (result : Word) : Bool :=
  match policy with
  | .cleared => false
  | .resultZero => decide (result = 0)

/-- R111, R136: the four flag writes of SP + e8, in the spec's order. -/
def State.setAddFlags (s : State) (v : Word) (e : Byte) : State :=
  (((s.setFlag .h (halfCarryLow v e)).setFlag .c (carryLow v e)).setFlag .z
    (f8Zero Config.f8ZPolicy (addSigned v e))).setFlag .n false

end Sys2Proof.Machine
end

