-- ==== Sys2Proof/Machine/Memory.lean ====
section
/-! DEFINITION. FlatRAM (R54): 65536 independent bytes, held as the list of those that differ from what an unlisted address
reads as. -/

namespace Sys2Proof.Machine

/-- What a byte nothing has written reads as, unless the launch image lists it: 0x00, the convention of 95_test_vectors.md
(log entry 3). -/
def unlistedByte : Byte := 0

/-- R54: `get(a)`. -/
def Memory.read : Memory → Nat → Byte
  | [], _ => unlistedByte
  | (k, w) :: rest, a => if k = a then w else Memory.read rest a

/-- R54: `set(a, v)`, keeping the canonical form: a byte that becomes what an unlisted address reads as is no longer listed. -/
def Memory.write : Memory → Nat → Byte → Memory
  | [], a, v => if v = unlistedByte then [] else [(a, v)]
  | (k, w) :: rest, a, v =>
    if a < k then (if v = unlistedByte then (k, w) :: rest else (a, v) :: (k, w) :: rest)
    else if k = a then (if v = unlistedByte then rest else (a, v) :: rest)
    else (k, w) :: Memory.write rest a v

/-- The canonical form: addresses strictly rising, no entry that an unlisted address would read as, and every address in the
domain 0x0000 to 0xFFFF (R50). -/
abbrev Memory.wf (m : Memory) : Prop :=
  m.Pairwise (fun x y => x.1 < y.1) ∧ ∀ x ∈ m, x.2 ≠ unlistedByte ∧ x.1 < 65536

/-- R54: the value of the last `set` at `a` in a history (newest first), if there is one. -/
def lastWrite : List Transaction → Word → Option Byte
  | [], _ => none
  | .read _ :: older, a => lastWrite older a
  | .write k v :: older, a => if k = a then some v else lastWrite older a

/-- Store some bytes at consecutive addresses modulo 2^16 (R33, R58): a program's bytes placed in FlatRAM. -/
def Memory.writeBytes : Memory → Word → List Byte → Memory
  | m, _, [] => m
  | m, a, v :: vs => Memory.writeBytes (Memory.write m a.toNat v) (a + 1) vs

end Sys2Proof.Machine
end

