-- ==== Sys2Proof/Machine/Ops.lean ====
section
/-! DEFINITION. The shared operations: one transaction on the AddressSpace (R50, R52), fetching the next byte (R108), the stack
(R110, R160), the 16-bit store (R111), and raising UnsupportedOpcode (R181, R182), which is the one way a failure is taken.
There is no return from it: the core has no trap mechanism and no trap return (R186, R187). -/

namespace Sys2Proof.Machine

/-- One transaction joins the Trace, after those already in it (R60, R69). -/
def State.log (s : State) (x : Transaction) : State := { s with trace := s.trace ++ [x] }

/-- What the AddressSpace answers to a read of `a` now (R53, R54). -/
def State.answer (s : State) (a : Word) : Byte :=
  match s.space with
  | .flatRam => s.mem.read a.toNat
  | .external k => Config.externalRead k s.history a

/-- R9: `MemRead(a, 1)`, one read transaction. -/
def State.memRead (s : State) (a : Word) : Byte × State := (s.answer a, s.log (.read a))

/-- R9: `MemWrite(a, 1, v)`, one write transaction. FlatRAM stores the byte; for any other instance the write only joins the
history (R53). -/
def State.memWrite (s : State) (a : Word) (v : Byte) : State :=
  match s.space with
  | .flatRam => { s.log (.write a v) with mem := s.mem.write a.toNat v }
  | .external _ => s.log (.write a v)

/-- A step or a host access begins: the transactions of the last one are history now, and no cycle count is emitted yet. -/
def State.beginStep (s : State) : State := { s with past := s.history, trace := [], cycles := none }

/-- R108: PC advances by one and then the byte at the new PC is read. -/
def State.fetchNext (s : State) : Byte × State := (s.setPc (s.pc + 1)).memRead (s.pc + 1)

/-- The fetch of one immediate byte as an instruction that carries its operand makes it: the same advance and the same
transaction as `fetchNext`, whose answer is the operand's byte (log entry 10). -/
def State.fetchOperand (s : State) : State := s.fetchNext.2

/-- R110: SP goes down by one and then the byte is written at the new SP. -/
def State.pushByte (s : State) (v : Byte) : State := (s.setSp (s.sp - 1)).memWrite (s.sp - 1) v

/-- R110: the byte at SP is read and then SP goes up by one. -/
def State.popByte (s : State) : Byte × State := ((s.memRead s.sp).1, (s.memRead s.sp).2.setSp (s.sp + 1))

/-- R160: the high byte is pushed first. -/
def State.pushWord (s : State) (v : Word) : State := (s.pushByte (hi v)).pushByte (lo v)

/-- R160: the low byte is popped first. -/
def State.popWord (s : State) : Word × State :=
  (cat s.popByte.2.popByte.1 s.popByte.1, s.popByte.2.popByte.2)

/-- R111, R137: the low byte at `a`, then the high byte at `(a + 1) mod 2^16`. -/
def State.storeWord (s : State) (a v : Word) : State := (s.memWrite a (lo v)).memWrite (a + 1) (hi v)

/-- R181, R182: UnsupportedOpcode is raised. The fault record is set and nothing else is written; PC still holds `p`. -/
def State.raiseUnsupported (s : State) (p : Word) (opcode : Byte) (isPrefixed : Bool) : State :=
  { s with fault := some ⟨.unsupportedOpcode, p, opcode, isPrefixed⟩ }

end Sys2Proof.Machine
end

