-- ==== Sys2Proof/Machine/Load16.lean ====
section
/-! DEFINITION. The 16-bit loads and SP arithmetic (41_load16.md). Each meaning is one execute (R102): it starts with PC at the
opcode byte, whose fetch the driver has made, and leaves PC at the instruction's last byte (R31). -/

namespace Sys2Proof.Machine

/-- The factory LoadImm16(rr) (R114): both immediate bytes are fetched, then the pair is written. No flag changes (R130). -/
def loadImm16 (rr : Pair) (d16 : Word) (s : State) : Host.Outcome State Fault Refusal :=
  .next (s.fetchOperand.fetchOperand.setPair rr d16)

/-- R131: `LD BC,d16`. -/
def execLdBcD16 (d16 : Word) (s : State) : Host.Outcome State Fault Refusal := loadImm16 .bc d16 s

/-- R132: `LD DE,d16`. -/
def execLdDeD16 (d16 : Word) (s : State) : Host.Outcome State Fault Refusal := loadImm16 .de d16 s

/-- R133: `LD HL,d16`. -/
def execLdHlD16 (d16 : Word) (s : State) : Host.Outcome State Fault Refusal := loadImm16 .hl d16 s

/-- R134: `LD SP,d16`. -/
def execLdSpD16 (d16 : Word) (s : State) : Host.Outcome State Fault Refusal := loadImm16 .sp d16 s

/-- R135: `LD SP,HL`, with no transaction and no change of PC. -/
def execLdSpHl (s : State) : Host.Outcome State Fault Refusal := .next (s.setPair .sp (s.getPair .hl))

/-- R136: `LD HL,SP+e8`. The flags come from the low-byte addition (R138), then HL gets the full sum; SP is not changed. -/
def execLdHlSpE8 (e8 : Byte) (s : State) : Host.Outcome State Fault Refusal :=
  .next ((s.fetchOperand.setAddFlags s.sp e8).setPair .hl (addSigned s.sp e8))

/-- R137: `LD (a16),SP`. Both address bytes are fetched before either byte is written (R66). -/
def execLdA16Sp (a16 : Word) (s : State) : Host.Outcome State Fault Refusal :=
  .next (s.fetchOperand.fetchOperand.storeWord a16 s.sp)

end Sys2Proof.Machine
end

