-- ==== Sys2Proof/Machine/Stack.lean ====
section
/-! DEFINITION. PUSH and POP (42_stack.md). PC is not changed by execute: each is one byte long (R32). -/

namespace Sys2Proof.Machine

/-- The factory Push(qq) (R114): the pair is read before either byte is written. -/
def pushPair (qq : Pair) (s : State) : Host.Outcome State Fault Refusal := .next (s.pushWord (s.getPair qq))

/-- The factory Pop(qq) (R114): both bytes are read before the pair is written; AF masks F (R28). -/
def popPair (qq : Pair) (s : State) : Host.Outcome State Fault Refusal := .next (s.popWord.2.setPair qq s.popWord.1)

/-- R161: `PUSH BC`. -/
def execPushBc (s : State) : Host.Outcome State Fault Refusal := pushPair .bc s

/-- R162: `PUSH DE`. -/
def execPushDe (s : State) : Host.Outcome State Fault Refusal := pushPair .de s

/-- R163: `PUSH HL`. -/
def execPushHl (s : State) : Host.Outcome State Fault Refusal := pushPair .hl s

/-- R164: `PUSH AF`. -/
def execPushAf (s : State) : Host.Outcome State Fault Refusal := pushPair .af s

/-- R165: `POP BC`. -/
def execPopBc (s : State) : Host.Outcome State Fault Refusal := popPair .bc s

/-- R166: `POP DE`. -/
def execPopDe (s : State) : Host.Outcome State Fault Refusal := popPair .de s

/-- R167: `POP HL`. -/
def execPopHl (s : State) : Host.Outcome State Fault Refusal := popPair .hl s

/-- R168: `POP AF`. -/
def execPopAf (s : State) : Host.Outcome State Fault Refusal := popPair .af s

end Sys2Proof.Machine
end

