-- ==== Sys2Proof/Syntax.lean ====
section
/-! DEFINITION. The instructions of the core: the fifteen admitted ones (R86), one constructor per row of
spec/opcode_table.json, each with the operand its encoding carries (R85). The pair an instruction works on is bound when
the opcode table is built (R84), so it is part of the constructor's name and no operand. -/

namespace Sys2Proof

inductive Instr
  /-- `LD BC,d16` (R131) -/
  | ldBcD16 (d16 : Word)
  /-- `LD DE,d16` (R132) -/
  | ldDeD16 (d16 : Word)
  /-- `LD HL,d16` (R133) -/
  | ldHlD16 (d16 : Word)
  /-- `LD SP,d16` (R134) -/
  | ldSpD16 (d16 : Word)
  /-- `LD SP,HL` (R135) -/
  | ldSpHl
  /-- `LD HL,SP+e8` (R136); `e8` is a signed byte in two's complement (R83) -/
  | ldHlSpE8 (e8 : Byte)
  /-- `LD (a16),SP` (R137) -/
  | ldA16Sp (a16 : Word)
  /-- `PUSH BC` (R161) -/
  | pushBc
  /-- `PUSH DE` (R162) -/
  | pushDe
  /-- `PUSH HL` (R163) -/
  | pushHl
  /-- `PUSH AF` (R164) -/
  | pushAf
  /-- `POP BC` (R165) -/
  | popBc
  /-- `POP DE` (R166) -/
  | popDe
  /-- `POP HL` (R167) -/
  | popHl
  /-- `POP AF` (R168) -/
  | popAf
  deriving DecidableEq, Repr

end Sys2Proof
end

