-- ==== Sys2Proof/Machine/Dispatch.lean ====
section
/-! DEFINITION. One execute of an instruction (R102): one arm per constructor of Instr. -/

namespace Sys2Proof.Machine

def exec (i : Instr) (s : State) : Host.Outcome State Fault Refusal :=
  match i with
  | .ldBcD16 d16 => Sys2Proof.Machine.execLdBcD16 d16 s
  | .ldDeD16 d16 => Sys2Proof.Machine.execLdDeD16 d16 s
  | .ldHlD16 d16 => Sys2Proof.Machine.execLdHlD16 d16 s
  | .ldSpD16 d16 => Sys2Proof.Machine.execLdSpD16 d16 s
  | .ldSpHl => Sys2Proof.Machine.execLdSpHl s
  | .ldHlSpE8 e8 => Sys2Proof.Machine.execLdHlSpE8 e8 s
  | .ldA16Sp a16 => Sys2Proof.Machine.execLdA16Sp a16 s
  | .pushBc => Sys2Proof.Machine.execPushBc s
  | .pushDe => Sys2Proof.Machine.execPushDe s
  | .pushHl => Sys2Proof.Machine.execPushHl s
  | .pushAf => Sys2Proof.Machine.execPushAf s
  | .popBc => Sys2Proof.Machine.execPopBc s
  | .popDe => Sys2Proof.Machine.execPopDe s
  | .popHl => Sys2Proof.Machine.execPopHl s
  | .popAf => Sys2Proof.Machine.execPopAf s

end Sys2Proof.Machine
end

