-- ==== Sys2Proof/WellFormed.lean ====
section
/-! DEFINITION. Formats (R80) and the check of an instruction's operand as an assembler writes it (R90): a d16 or a16 is a
number 0x0000 to 0xFFFF, an e8 a number -128 to 127, and a format without an immediate takes no operand.
The operands of `Instr` are bit vectors of the encoding's own widths, so every term of `Instr` passes
(Laws/PerInstr.lean, family WellFormed); what can be ill-formed is the operand of an assembler line, which Decode.lean's
`assemble` refuses by this check. -/

namespace Sys2Proof

/-- The three instruction formats (R80). -/
inductive Format
  /-- the opcode byte alone -/
  | op
  /-- the opcode byte and a signed immediate byte -/
  | opE8
  /-- the opcode byte and a 16-bit immediate, low byte first -/
  | opImm16
  deriving DecidableEq, Repr

/-- R90: which operand an assembler line may write for a format. -/
def Format.operandOk : Format → Option Int → Bool
  | .op, none => true
  | .op, some _ => false
  | .opE8, none => false
  | .opE8, some v => decide (-128 ≤ v) && decide (v ≤ 127)
  | .opImm16, none => false
  | .opImm16, some v => decide (0 ≤ v) && decide (v ≤ 0xFFFF)

/-- The format of an instruction (R85). -/
def Instr.format : Instr → Format
  | .ldBcD16 _ => .opImm16
  | .ldDeD16 _ => .opImm16
  | .ldHlD16 _ => .opImm16
  | .ldSpD16 _ => .opImm16
  | .ldSpHl => .op
  | .ldHlSpE8 _ => .opE8
  | .ldA16Sp _ => .opImm16
  | .pushBc => .op
  | .pushDe => .op
  | .pushHl => .op
  | .pushAf => .op
  | .popBc => .op
  | .popDe => .op
  | .popHl => .op
  | .popAf => .op

/-- The operand of an instruction as the number an assembler line writes (R90): unsigned for d16 and a16, signed for e8. -/
def Instr.operand : Instr → Option Int
  | .ldBcD16 d16 => some d16.toNat
  | .ldDeD16 d16 => some d16.toNat
  | .ldHlD16 d16 => some d16.toNat
  | .ldSpD16 d16 => some d16.toNat
  | .ldSpHl => none
  | .ldHlSpE8 e8 => some e8.toInt
  | .ldA16Sp a16 => some a16.toNat
  | .pushBc => none
  | .pushDe => none
  | .pushHl => none
  | .pushAf => none
  | .popBc => none
  | .popDe => none
  | .popHl => none
  | .popAf => none

/-- An instruction is well formed when its operand is one its format admits. -/
def Instr.wellFormed (i : Instr) : Bool := i.format.operandOk i.operand

end Sys2Proof
end

