-- ==== Sys2Proof/Decode.lean ====
section
/-! DEFINITION. Decoding (R80 to R89) and, after it, encoding (R85, R90). The opcode byte alone selects the row (R81, R84);
the bytes after it are looked at only where the row's format has them. Decoding is total: whatever is not one of the
fifteen rows is rejected by name (R87, R88, R89). -/

namespace Sys2Proof

open Sys2Proof.Machine (cat hi lo)

/-- R88: the byte that selects the extended opcode space (log entry 8). -/
def prefixByte : Byte := 0xCB

/-- R86: the primary opcode table's formats, `none` for a byte with no entry. -/
def formatOf (b0 : Byte) : Option Format :=
  match b0 with
  | 0x01#8 => some .opImm16
  | 0x11#8 => some .opImm16
  | 0x21#8 => some .opImm16
  | 0x31#8 => some .opImm16
  | 0xF9#8 => some .op
  | 0xF8#8 => some .opE8
  | 0x08#8 => some .opImm16
  | 0xC5#8 => some .op
  | 0xD5#8 => some .op
  | 0xE5#8 => some .op
  | 0xF5#8 => some .op
  | 0xC1#8 => some .op
  | 0xD1#8 => some .op
  | 0xE1#8 => some .op
  | 0xF1#8 => some .op
  | _ => none

/-- R80: how many bytes follow the opcode byte. -/
def Format.operandBytes : Format → Nat
  | .op => 0
  | .opE8 => 1
  | .opImm16 => 2

/-- R85, R86: the instruction of opcode byte `b0` when the two bytes after it are `b1` and `b2`, of which a row looks at as
many as its format has. A 16-bit immediate has its low byte first and is not sign-extended (R82). -/
def instrOf (b0 b1 b2 : Byte) : Option Instr :=
  match b0 with
  | 0x01#8 => some (.ldBcD16 (cat b2 b1))
  | 0x11#8 => some (.ldDeD16 (cat b2 b1))
  | 0x21#8 => some (.ldHlD16 (cat b2 b1))
  | 0x31#8 => some (.ldSpD16 (cat b2 b1))
  | 0xF9#8 => some .ldSpHl
  | 0xF8#8 => some (.ldHlSpE8 b1)
  | 0x08#8 => some (.ldA16Sp (cat b2 b1))
  | 0xC5#8 => some .pushBc
  | 0xD5#8 => some .pushDe
  | 0xE5#8 => some .pushHl
  | 0xF5#8 => some .pushAf
  | 0xC1#8 => some .popBc
  | 0xD1#8 => some .popDe
  | 0xE1#8 => some .popHl
  | 0xF1#8 => some .popAf
  | _ => none

/-- Why some bytes are no instruction. -/
inductive DecodeError
  /-- There is no byte at all. -/
  | noBytes
  /-- The bytes end before the instruction that opcode byte `b0` begins. -/
  | truncated (b0 : Byte)
  /-- `opcode` has no entry, in the extended table when `isPrefixed`, else in the primary one (R87, R88). -/
  | unsupported (opcode : Byte) (isPrefixed : Bool)
  deriving DecidableEq, Repr

/-- R87, R88: read one instruction from the front of some bytes; the rest of the bytes comes back with it. -/
def decode : List Byte → Except DecodeError (Instr × List Byte)
  | [] => .error .noBytes
  | b0 :: rest =>
    if b0 = prefixByte then
      match rest with
      | [] => .error (.truncated b0)
      | b1 :: _ => .error (.unsupported b1 true)
    else
      match formatOf b0, instrOf b0 (rest.getD 0 0) (rest.getD 1 0) with
      | some fmt, some i =>
        if rest.length < fmt.operandBytes then .error (.truncated b0)
        else .ok (i, rest.drop fmt.operandBytes)
      | _, _ => .error (.unsupported b0 false)

/-- R80, R85: the bytes of an instruction, in the order they lie in memory. -/
def encode : Instr → List Byte
  | .ldBcD16 d16 => [0x01, lo d16, hi d16]
  | .ldDeD16 d16 => [0x11, lo d16, hi d16]
  | .ldHlD16 d16 => [0x21, lo d16, hi d16]
  | .ldSpD16 d16 => [0x31, lo d16, hi d16]
  | .ldSpHl => [0xF9]
  | .ldHlSpE8 e8 => [0xF8, e8]
  | .ldA16Sp a16 => [0x08, lo a16, hi a16]
  | .pushBc => [0xC5]
  | .pushDe => [0xD5]
  | .pushHl => [0xE5]
  | .pushAf => [0xF5]
  | .popBc => [0xC1]
  | .popDe => [0xD1]
  | .popHl => [0xE1]
  | .popAf => [0xF1]

/-- R90: what an assembler emits after an opcode byte of this format for the operand it was given: a d16 or a16 low byte first,
an e8 as its two's complement byte. -/
def Format.emit : Format → Int → List Byte
  | .op, _ => []
  | .opE8, v => [BitVec.ofInt 8 v]
  | .opImm16, v => [lo (BitVec.ofInt 16 v), hi (BitVec.ofInt 16 v)]

/-- R90, R91: assemble one line, given as the opcode byte its spelling names and its operand; `none` where the opcode has no
spelling or the operand is not one its format admits. -/
def assemble (b0 : Byte) (operand : Option Int) : Option (List Byte) :=
  match formatOf b0 with
  | none => none
  | some fmt => if fmt.operandOk operand then some (b0 :: fmt.emit (operand.getD 0)) else none

/-- The bytes of a word whose bits spec/opcode_table.json numbers from the first byte's least significant bit: byte k is bits
8k+7 to 8k. Bits from `nbits` on are 0, up to the longest instruction (three bytes, R80). -/
def tableBytes (nbits w : Nat) : List Byte :=
  [BitVec.ofNat 8 (w % 2 ^ nbits), BitVec.ofNat 8 (w % 2 ^ nbits / 256), BitVec.ofNat 8 (w % 2 ^ nbits / 65536)]

/-- The instruction this decoder reads from a word of spec/opcode_table.json. -/
def decodeTableWord (nbits w : Nat) : Option Instr :=
  match decode (tableBytes nbits w) with
  | .ok (i, _) => some i
  | .error _ => none

end Sys2Proof
end

