-- ==== Sys2Proof/Machine/Timing.lean ====
section
/-! DEFINITION. Declared cycle counts (R207, R208), the label a step emits. -/

namespace Sys2Proof.Machine

/-- R208: declared machine cycles, the opcode fetch included. -/
def cyclesOf : Instr → Nat
  | .ldBcD16 _ => 3
  | .ldDeD16 _ => 3
  | .ldHlD16 _ => 3
  | .ldSpD16 _ => 3
  | .ldSpHl => 2
  | .ldHlSpE8 _ => 3
  | .ldA16Sp _ => 5
  | .pushBc => 4
  | .pushDe => 4
  | .pushHl => 4
  | .pushAf => 4
  | .popBc => 3
  | .popDe => 3
  | .popHl => 3
  | .popAf => 3

end Sys2Proof.Machine
end

