-- ==== Sys2Proof/Machine/Fetch.lean ====
section
/-! DEFINITION. What a driver step (R112) does around one execute: the opcode fetch and the lookup before it, and the advance of
PC and the cycle label after it. An instruction's immediate bytes are fetched by its own Operations (R81, R108); decoding looks
ahead at what those fetches will be answered, and makes no transaction for them. -/

namespace Sys2Proof.Machine

/-- What the AddressSpace answers to the opcode fetch and to the two fetches that may follow it. -/
def codeBytes (s : State) : Byte × Byte × Byte :=
  let r0 := s.memRead s.pc
  let r1 := r0.2.fetchNext
  let r2 := r1.2.fetchNext
  (r0.1, r1.1, r2.1)

/-- The outcome of the opcode fetch and the lookup, with the state their transactions leave. -/
inductive Fetched
  /-- An admitted instruction, after the read of its opcode byte. -/
  | instr (i : Instr) (s : State)
  /-- No table entry, after the reads the lookup needed. -/
  | unsupported (opcode : Byte) (isPrefixed : Bool) (s : State)

/-- R112: the opcode is read; after the prefix byte the next byte is read too, and every lookup of it fails (R88); else the
byte is looked up in the primary table (R87). -/
def fetch (s : State) : Fetched :=
  let b := codeBytes s
  let s1 := (s.memRead s.pc).2
  if b.1 = prefixByte then .unsupported (s1.memRead (s.pc + 1)).1 true (s1.memRead (s.pc + 1)).2
  else
    match instrOf b.1 b.2.1 b.2.2 with
    | none => .unsupported b.1 false s1
    | some i => .instr i s1

/-- R112: after execute, PC goes to the next opcode and the declared cycle count is emitted. -/
def completeStep (i : Instr) (r : Host.Outcome State Fault Refusal) : Host.Outcome State Fault Refusal :=
  match r with
  | .next t => .next { t with pc := t.pc + 1, cycles := some (cyclesOf i) }
  | .fault x => .fault x
  | .refused x => .refused x

/-- A program's bytes placed in FlatRAM at PC, with FlatRAM selected as the AddressSpace and no fault recorded, so that the
next step fetches them (log entry 11). -/
def State.withCode (s : State) (bytes : List Byte) : State :=
  { s with space := .flatRam, mem := s.mem.writeBytes s.pc bytes, fault := none }

end Sys2Proof.Machine
end

