-- ==== Sys2Proof/Machine/Step.lean ====
section
/-! DEFINITION. One driver step (R112): fetch, lookup, execute, PC to the next opcode. -/

namespace Sys2Proof.Machine

/-- R112. A state with a fault record has no step (R40); an opcode with no table entry raises UnsupportedOpcode, whose next
state is the state before but for the fault record and the Trace (R182, R183). -/
def step (s : State) : Host.Outcome State Fault Refusal :=
  match s.fault with
  | some info => .fault (.unsupportedOpcode info)
  | none =>
    match fetch s.beginStep with
    | .instr i s1 => completeStep i (exec i s1)
    | .unsupported opcode isPrefixed s1 => .next (s1.raiseUnsupported s.pc opcode isPrefixed)

/-- `s` with a word of spec/opcode_table.json placed where `step` fetches its next instruction. -/
def State.withFetchWord (s : State) (nbits w : Nat) : State := s.withCode (tableBytes nbits w)

end Sys2Proof.Machine
end

