-- ==== Sys2Proof/Machine/Executor.lean ====
section
/-! DEFINITION. The micro-operation executor and the opcode tables (40_execution.md): an Instruction is an ordered list of
Operations with a declared cycle count and an identifier (R101), run by folding an accumulator and a Context through the list
(R102). The lists are the spec's reference decomposition; only their final state and Trace are normative (R107). -/

namespace Sys2Proof.Machine

/-- R104: a record of optional scratch fields, all unset when created. The spec names no field, so a field is a number. -/
abbrev Context := List (Nat × Int)

/-- What one execute carries from Operation to Operation (R100, R103): the machine, the accumulator (an unbounded integer) and
the Context. -/
structure ExecState where
  state : State
  acc : Int
  ctx : Context
  deriving DecidableEq, Repr

/-- An Operation (R100) as plain data: a primitive of R108 to R111 with the selector bound to it at table construction, or one
of the kinds that no admitted instruction uses: saving and reading a Context field (R104), and an Operation whose effect depends
on a flag (R106) or on what an earlier Operation left in a Context field (90_conflicts.md C7). -/
inductive MicroOp
  | fetchLo
  | fetchHi
  | readPair (rr : Pair)
  | writePair (rr : Pair)
  | pushHi
  | pushLo
  | popLo
  | popHi
  | storeSpLo
  | storeSpHi
  | addSpE8
  | setField (field : Nat)
  | getField (field : Nat)
  | ifFlag (x : Flag) (v : Bool) (op : MicroOp)
  | ifField (field : Nat) (v : Int) (op : MicroOp)
  deriving DecidableEq, Repr

/-- The accumulator value of a byte: `zext_16(b)`. -/
def accOfByte (b : Byte) : Int := (zext16 b).toNat

/-- The accumulator value of a 16-bit value. -/
def accOfWord (v : Word) : Int := v.toNat

/-- `acc[7:0]`. DESIGN CHOICE (log entry 14): R8 gives slices of unsigned bit patterns only; of a negative accumulator these are
the bits of its two's complement. -/
def accLo (acc : Int) : Byte := BitVec.ofInt 8 acc

/-- `acc[15:0]`. DESIGN CHOICE (log entry 14): of a negative accumulator, the bits of its two's complement. -/
def accWord (acc : Int) : Word := BitVec.ofInt 16 acc

/-- `acc[15:8]`, the high byte of `acc[15:0]`, so of a negative accumulator as there. -/
def accHi (acc : Int) : Byte := hi (accWord acc)

/-- R108 to R111: one Operation. It returns the next accumulator. -/
def MicroOp.run : MicroOp → ExecState → Except Fault ExecState
  | .fetchLo, x => .ok { x with state := x.state.fetchNext.2, acc := accOfByte x.state.fetchNext.1 }
  | .fetchHi, x =>
    .ok { x with state := x.state.fetchNext.2, acc := accOfWord (cat x.state.fetchNext.1 (accLo x.acc)) }
  | .readPair rr, x => .ok { x with acc := accOfWord (x.state.getPair rr) }
  | .writePair rr, x => .ok { x with state := x.state.setPair rr (accWord x.acc) }
  | .pushHi, x => .ok { x with state := x.state.pushByte (accHi x.acc) }
  | .pushLo, x => .ok { x with state := x.state.pushByte (accLo x.acc) }
  | .popLo, x => .ok { x with state := x.state.popByte.2, acc := accOfByte x.state.popByte.1 }
  | .popHi, x =>
    .ok { x with state := x.state.popByte.2, acc := accOfWord (cat x.state.popByte.1 (accLo x.acc)) }
  | .storeSpLo, x => .ok { x with state := x.state.memWrite (accWord x.acc) (lo x.state.sp) }
  | .storeSpHi, x => .ok { x with state := x.state.memWrite (accWord x.acc + 1) (hi x.state.sp) }
  | .addSpE8, x =>
    .ok { x with
      state := x.state.setAddFlags x.state.sp (accLo x.acc)
      acc := accOfWord (addSigned x.state.sp (accLo x.acc)) }
  | .setField field, x => .ok { x with ctx := (field, x.acc) :: x.ctx }
  | .getField field, x =>
    match x.ctx.lookup field with
    | none => .error (.contextUnset field)
    | some v => .ok { x with acc := v }
  | .ifFlag fl v op, x => if x.state.flag fl = v then op.run x else .ok x
  | .ifField field v op, x =>
    match x.ctx.lookup field with
    | none => .error (.contextUnset field)
    | some w => if w = v then op.run x else .ok x

/-- R102, R105: every Operation of the list, in order; operation k+1 sees all that operations 0 to k did. -/
def runOps : List MicroOp → ExecState → Except Fault ExecState
  | [], x => .ok x
  | op :: ops, x =>
    match op.run x with
    | .error r => .error r
    | .ok y => runOps ops y

/-- R101: an Instruction, immutable. -/
structure Instruction where
  identifier : String
  cycles : Nat
  ops : List MicroOp
  deriving DecidableEq, Repr

/-- R102, R202: execute, from a fresh Context and an accumulator `acc0` that may be any integer; both are discarded at the end. -/
def Instruction.execute (x : Instruction) (acc0 : Int) (s : State) : Host.Outcome State Fault Refusal :=
  match runOps x.ops ⟨s, acc0, []⟩ with
  | .ok y => .next y.state
  | .error r => .fault r

/-- R114: the factory LoadImm16(rr) (R131 to R134). -/
def Instruction.loadImm16 (rr : Pair) (identifier : String) : Instruction :=
  ⟨identifier, 3, [.fetchLo, .fetchHi, .writePair rr]⟩

/-- R114: the factory Push(qq) (R161 to R164). -/
def Instruction.push (qq : Pair) (identifier : String) : Instruction :=
  ⟨identifier, 4, [.readPair qq, .pushHi, .pushLo]⟩

/-- R114: the factory Pop(qq) (R165 to R168). -/
def Instruction.pop (qq : Pair) (identifier : String) : Instruction :=
  ⟨identifier, 3, [.popLo, .popHi, .writePair qq]⟩

/-- R86, R90, R114: the primary opcode table. -/
def primaryTable : List (Byte × Instruction) :=
  [(0x01, .loadImm16 .bc "LD BC,d16"),
   (0x11, .loadImm16 .de "LD DE,d16"),
   (0x21, .loadImm16 .hl "LD HL,d16"),
   (0x31, .loadImm16 .sp "LD SP,d16"),
   (0xF9, ⟨"LD SP,HL", 2, [.readPair .hl, .writePair .sp]⟩),
   (0xF8, ⟨"LD HL,SP+e8", 3, [.fetchLo, .addSpE8, .writePair .hl]⟩),
   (0x08, ⟨"LD (a16),SP", 5, [.fetchLo, .fetchHi, .storeSpLo, .storeSpHi]⟩),
   (0xC5, .push .bc "PUSH BC"),
   (0xD5, .push .de "PUSH DE"),
   (0xE5, .push .hl "PUSH HL"),
   (0xF5, .push .af "PUSH AF"),
   (0xC1, .pop .bc "POP BC"),
   (0xD1, .pop .de "POP DE"),
   (0xE1, .pop .hl "POP HL"),
   (0xF1, .pop .af "POP AF")]

/-- R88: the extended opcode table, which has no entry. -/
def extendedTable : List (Byte × Instruction) := []

/-- R115: lookup reads only the table; `none` where it fails with UnsupportedOpcode. -/
def lookup (opcode : Byte) (isPrefixed : Bool) : Option Instruction :=
  (if isPrefixed then extendedTable else primaryTable).lookup opcode

end Sys2Proof.Machine
end

