-- ==== Sys2Proof/Machine/Driver.lean ====
section
/-! DEFINITION. The reference driver step as R112 writes it, over the opcode tables and the micro-operation executor. `step`
(Machine/Step.lean) runs the decoded instruction instead; that the two agree is a statement for the provers. -/

namespace Sys2Proof.Machine

/-- R112: after execute, PC goes to the next opcode and the declared cycle count is emitted. -/
def finishDriver (x : Instruction) (r : Host.Outcome State Fault Refusal) : Host.Outcome State Fault Refusal :=
  match r with
  | .next t => .next { t with pc := t.pc + 1, cycles := some x.cycles }
  | .fault y => .fault y
  | .refused y => .refused y

/-- R112, line by line, with the OPEN parameter acc0 as an argument (R6) and PREFIXED_PC_CONVENTION from Config. -/
def driverStep (acc0 : Int) (s : State) : Host.Outcome State Fault Refusal :=
  match s.fault with
  | some info => .fault (.unsupportedOpcode info)
  | none =>
    let s0 := s.beginStep
    let p := s0.pc
    let r := s0.memRead p
    if r.1 = prefixByte then
      let r2 := r.2.memRead (p + 1)
      match lookup r2.1 true with
      | none => .next (r2.2.raiseUnsupported p r2.1 true)
      | some x => finishDriver x (x.execute acc0 (r2.2.setPc (Config.prefixedPc p)))
    else
      match lookup r.1 false with
      | none => .next (r.2.raiseUnsupported p r.1 false)
      | some x => finishDriver x (x.execute acc0 r.2)

end Sys2Proof.Machine
end

