-- ==== Sys2Proof/Machine/HostInterface.lean ====
section
/-! DEFINITION. What the host may do to the core, each between two steps (R190), and a run as the host drives it (R191). An
interrupt, in a system built on this core, is one of these writes (R184). -/

namespace Sys2Proof.Machine

/-- The interactions of R190's table. -/
inductive HostAction
  /-- invoke the driver step -/
  | runStep
  /-- read a register, a pair or a flag, or the fault record -/
  | readState
  /-- read a byte of the AddressSpace -/
  | readByte (a : Word)
  /-- write an 8-bit register; F is masked -/
  | writeReg8 (r : Reg8) (v : Byte)
  /-- write a pair or SP; AF is masked -/
  | writePair (rr : Pair) (v : Word)
  /-- write PC -/
  | writePc (v : Word)
  /-- write one flag -/
  | writeFlag (x : Flag) (v : Bool)
  /-- write a byte of the AddressSpace -/
  | writeByte (a : Word) (v : Byte)
  /-- not invoke the driver for a while -/
  | stop
  /-- read an Instruction's identifier, Operations and cycle count -/
  | readInstruction (opcode : Byte) (isPrefixed : Bool)
  /-- touch registers or memory while a step runs, which R190 and R206 give no meaning -/
  | overlapStep
  deriving DecidableEq, Repr

/-- R190: the effect of one interaction. A host access to the AddressSpace is a transaction like any other, with a Trace of its
own (log entry 12). -/
def hostAct (x : HostAction) (s : State) : Host.Outcome State Fault Refusal :=
  match x with
  | .runStep => step s
  | .readState => .next s
  | .readByte a => .next (s.beginStep.memRead a).2
  | .writeReg8 r v => .next (s.setReg8 r v)
  | .writePair rr v => .next (s.setPair rr v)
  | .writePc v => .next (s.setPc v)
  | .writeFlag fl v => .next (s.setFlag fl v)
  | .writeByte a v => .next (s.beginStep.memWrite a v)
  | .stop => .next s
  | .readInstruction _ _ => .next s
  | .overlapStep => .refused .hostAccessOverlapsStep

/-- R190, R115, R116: what reading an Instruction gives. -/
def readInstruction (opcode : Byte) (isPrefixed : Bool) : Option (String × List MicroOp × Nat) :=
  (lookup opcode isPrefixed).map (fun x => (x.identifier, x.ops, x.cycles))

/-- R190, R191: the host's interactions one after another, until one of them stops. -/
def hostRun : List HostAction → State → Host.Outcome State Fault Refusal
  | [], s => .next s
  | x :: xs, s =>
    match hostAct x s with
    | .next t => hostRun xs t
    | .fault r => .fault r
    | .refused r => .refused r

end Sys2Proof.Machine
end

