-- ==== Sys2Proof/Safety.lean ====
section
/-! DEFINITION. What holds in every state a run reaches, and when a run ends normally, in the terms the claims use. -/

namespace Sys2Proof.Machine

/-- R181: what a fault record may say: the byte looked up has no entry in the table asked, and the primary table is not asked
for the prefix byte. -/
abbrev FaultInfo.wf (x : FaultInfo) : Prop :=
  lookup x.opcode x.isPrefixed = none ∧ (x.isPrefixed = false → x.opcode ≠ prefixByte)

/-- The invariant of every reachable state: F[3:0] = 0 (R23), FlatRAM's contents are in canonical form (R54, log entry 3), and a
fault record names an opcode with no table entry (R40, R181). -/
abbrev State.wf (s : State) : Prop :=
  s.f &&& 0x0F = 0 ∧ s.mem.wf ∧ ∀ x ∈ s.fault, x.wf

/-- `t` is reached from a launch state by steps and other host interactions (R190, R191). -/
abbrev ReachedFrom (x : LaunchState) (t : State) : Prop :=
  ∃ acts, hostRun acts (State.launch x) = .next t

/-- R191: a run of `n` driver steps from `s` that ends normally in `t`: the host stops after the last completed step, and no
fault is recorded. -/
abbrev EndsNormally (s : State) (n : Nat) (t : State) : Prop :=
  Host.Core.run Sys2Proof.core n s = .next t ∧ t.fault = none

end Sys2Proof.Machine
end

