-- ==== Sys2Proof/Certificates/Slice0/Obligations.lean ====
section
/-! DEFINITION. The statements for the provers. Each docstring says which rule of spec/ the statement formalises, and where a
clause rests on the spec's own decision (92_eei_decisions.md) or on a choice of the model, it says which. A premise `mem.wf` asks
for memory in the model's canonical form (log entry 3), which StepKeepsInvariant says that every step keeps. -/

open Sys2Proof Sys2Proof.Machine

/-! ## Registers and flags -/

/-- R22: each of A, B, C, D, E, H, L reads back exactly the last value written, and a write of one slot changes no other. -/
def Obligations.EightBitRegistersReadBack : Prop :=
  ∀ (s : State) (r : Reg8) (v : Byte),
    (r ≠ .f → (s.setReg8 r v).getReg8 r = v) ∧
    (∀ q, q ≠ r → (s.setReg8 r v).getReg8 q = s.getReg8 q) ∧
    (s.setReg8 r v).pc = s.pc ∧ (s.setReg8 r v).sp = s.sp ∧ (s.setReg8 r v).mem = s.mem

/-- R23: every write to F, of the whole byte, through AF or of one flag, leaves its low nibble zero, and it is zero in every
state reached from any launch state. -/
def Obligations.FlagByteLowNibbleZero : Prop :=
  (∀ (s : State) (v : Byte), (s.setReg8 .f v).getReg8 .f = v &&& 0xF0) ∧
  (∀ (s : State) (v : Word), (s.setPair .af v).getReg8 .f = lo v &&& 0xF0) ∧
  (∀ (s : State) (x : Flag) (v : Bool),
    (s.setFlag x v).f = (if v then s.f ||| x.mask else s.f &&& ~~~x.mask) &&& 0xF0 ∧ (s.setFlag x v).f &&& 0x0F = 0) ∧
  (∀ x : LaunchState, (State.launch x).f &&& 0x0F = 0) ∧
  (∀ (x : LaunchState) (t : State), ReachedFrom x t → t.f &&& 0x0F = 0)

/-- R24, R25: where the flags stand in F (the spec's own decision D3), what a predicate reads, and that writing one flag changes
that flag alone. -/
def Obligations.FlagPositionsAndSingleWrites : Prop :=
  ∀ s : State,
    s.isZ = s.f.getLsbD 7 ∧ s.isN = s.f.getLsbD 6 ∧ s.isH = s.f.getLsbD 5 ∧ s.isC = s.f.getLsbD 4 ∧
    ∀ (x : Flag) (v : Bool),
      (∀ y, (s.setFlag x v).flag y = if y = x then v else s.flag y) ∧
      s.setFlag x v = { s with f := (s.setFlag x v).f }

/-- R27, R28: a pair reads as its first-named register times 256 plus its second, and writing a pair writes those two registers
and nothing else, F through its mask. -/
def Obligations.PairViewsHighAndLow : Prop :=
  ∀ (s : State) (v : Word),
    (s.getPair .af).toNat = s.a.toNat * 256 + s.f.toNat ∧
    (s.getPair .bc).toNat = s.b.toNat * 256 + s.c.toNat ∧
    (s.getPair .de).toNat = s.d.toNat * 256 + s.e.toNat ∧
    (s.getPair .hl).toNat = s.h.toNat * 256 + s.l.toNat ∧
    ∃ x y : Byte, x.toNat = v.toNat / 256 ∧ y.toNat = v.toNat % 256 ∧
      s.setPair .bc v = { s with b := x, c := y } ∧
      s.setPair .de v = { s with d := x, e := y } ∧
      s.setPair .hl v = { s with h := x, l := y } ∧
      s.setPair .af v = { s with a := x, f := y &&& 0xF0 }

/-- R29: writing and then reading BC, DE, HL, SP or PC gives the value; AF gives it with its four low bits zero. -/
def Obligations.PairRoundTrip : Prop :=
  ∀ (s : State) (v : Word),
    (∀ rr, rr ≠ .af → (s.setPair rr v).getPair rr = v) ∧ (s.setPc v).pc = v ∧ (s.setPair .af v).getPair .af = v &&& 0xFFF0

/-! ## Launch, reset and the invariant -/

/-- R42, R200: a launch state holds the values it is given, whatever they are, but for F[3:0] = 0, and has no fault. That
`State.reset` is the all-zero launch with FlatRAM is the model's choice (log entry 1) and is not stated here. -/
def Obligations.LaunchStateHoldsGivenValues : Prop :=
  ∀ x : LaunchState,
    (State.launch x).a = x.a ∧ (State.launch x).f = x.f &&& 0xF0 ∧ (State.launch x).b = x.b ∧ (State.launch x).c = x.c ∧
    (State.launch x).d = x.d ∧ (State.launch x).e = x.e ∧ (State.launch x).h = x.h ∧ (State.launch x).l = x.l ∧
    (State.launch x).pc = x.pc ∧ (State.launch x).sp = x.sp ∧ (State.launch x).space = x.space ∧
    (State.launch x).mem = x.mem ∧ (State.launch x).fault = none

/-- The invariant holds at reset, and at every launch whose FlatRAM image is in canonical form. -/
def Obligations.ResetMeetsInvariant : Prop :=
  State.reset.wf ∧ ∀ x : LaunchState, x.mem.wf → (State.launch x).wf

/-- Every step keeps the invariant: F[3:0] = 0 (R23), canonical memory (log entry 3), and a fault record that names an opcode
with no table entry (R181). -/
def Obligations.StepKeepsInvariant : Prop :=
  ∀ s t : State, s.wf → step s = .next t → t.wf

/-- The invariant holds in every state that steps and other host interactions (R190) reach from a launch state. That memory has a
canonical form is the model's choice (log entry 3). -/
def Obligations.ReachedStatesMeetInvariant : Prop :=
  ∀ (x : LaunchState) (t : State), x.mem.wf → ReachedFrom x t → t.wf

/-! ## The AddressSpace -/

/-- R54 (the spec's own decision D9): with FlatRAM bound at launch, whatever steps and host interactions came since, a read
answers the value of the last write to that address in the history of transactions, or the launch image's byte. -/
def Obligations.FlatRamReadsLastWrite : Prop :=
  ∀ (x : LaunchState) (t : State), x.space = .flatRam → x.mem.wf → ReachedFrom x t →
    ∀ a : Word, t.answer a = (lastWrite t.history a).getD (x.mem.read a.toNat)

/-- R52, R54: one write transaction on FlatRAM is read back at its address, changes no other byte and nothing else of the
machine but the Trace. That it keeps the canonical form of memory is no rule of the spec but the model's choice (log entry 3). -/
def Obligations.WriteTransactionChangesOneByte : Prop :=
  ∀ (s : State) (a : Word) (v : Byte), s.space = .flatRam → s.mem.wf →
    (s.memWrite a v).answer a = v ∧
    (∀ b : Word, b ≠ a → (s.memWrite a v).answer b = s.answer b) ∧
    (s.memWrite a v).mem.wf ∧
    s.memWrite a v = { s with mem := (s.memWrite a v).mem, trace := s.trace ++ [.write a v] }

/-- R53 (the spec's own decision D9): on any other AddressSpace a write only joins the history, a read changes nothing but the
history, and an answer depends on the instance, the history and the address alone. -/
def Obligations.ExternalAddressSpaceAnswersFromHistory : Prop :=
  ∀ (s : State) (k : Nat) (a : Word) (v : Byte), s.space = .external k →
    s.memWrite a v = { s with trace := s.trace ++ [.write a v] } ∧
    (s.memRead a).2 = { s with trace := s.trace ++ [.read a] } ∧
    (s.memRead a).2.history = .read a :: s.history ∧
    ∀ t : State, t.space = .external k → t.history = s.history → (t.memRead a).1 = (s.memRead a).1

/-- R55, R56: with FlatRAM, `LD (a16),SP` followed by a 16-bit immediate fetch at a16 gives the stored SP. -/
def Obligations.StoredStackPointerFetchedBack : Prop :=
  ∀ (s : State) (a : Word), s.space = .flatRam → s.mem.wf →
    ∃ t, exec (.ldA16Sp a) s = .next t ∧
      cat (t.setPc (a - 1)).fetchNext.2.fetchNext.1 (t.setPc (a - 1)).fetchNext.1 = s.sp

/-- R66, R205: with FlatRAM, a step that runs `LD (a16),SP` runs it with the operand it fetched even where the store hits its own
bytes, and the next opcode fetch sees what was stored. -/
def Obligations.NextFetchSeesStoredBytes : Prop :=
  ∀ (s : State) (a : Word), s.space = .flatRam → s.mem.wf → s.fault = none → codeBytes s = (0x08, lo a, hi a) →
    ∃ t, step s = .next t ∧ t.pc = s.pc + 3 ∧ t.mem.read a.toNat = lo s.sp ∧ t.mem.read (a + 1).toNat = hi s.sp ∧
      (codeBytes t).1 =
        if s.pc + 3 = a then lo s.sp else if s.pc + 3 = a + 1 then hi s.sp else s.mem.read (s.pc + 3).toNat

/-! ## Encoding -/

/-- R80, R85: decoding what `encode` gives, with anything after it, gives the instruction back, for every instruction and every
value of its operand. -/
def Obligations.DecodeOfEncode : Prop :=
  ∀ (i : Instr) (rest : List Byte), decode (encode i ++ rest) = .ok (i, rest)

/-- R80, R85: whatever bytes decode to an instruction are the bytes `encode` gives for it, so every word has one meaning. -/
def Obligations.EncodeOfDecode : Prop :=
  ∀ (bs : List Byte) (i : Instr) (rest : List Byte), decode bs = .ok (i, rest) → bs = encode i ++ rest

/-- R85: words written out bit by bit from the spec's table decode to the instructions they stand for. -/
def Obligations.WrittenOutWordsDecode : Prop :=
  decode [0b00000001, 0b10011001, 0b10100000] = .ok (.ldBcD16 0xA099, []) ∧
  decode [0b11111001] = .ok (.ldSpHl, []) ∧
  decode [0b11111000, 0b11111011] = .ok (.ldHlSpE8 0xFB, []) ∧
  decode [0b00001000, 0b00010001, 0b11111100] = .ok (.ldA16Sp 0xFC11, []) ∧
  decode [0b11110101] = .ok (.pushAf, []) ∧
  decode [0b11110001] = .ok (.popAf, [])

/-- R86, R88, R115: the primary table has exactly the fifteen entries (nine of their bytes by the spec's own decision D2), the
decoder's formats agree with it, and the extended table has none (decision D5). -/
def Obligations.TablesHoldFifteenEntries : Prop :=
  ∀ b : Byte,
    ((lookup b false).isSome = true ↔
      b ∈ ([0x01, 0x11, 0x21, 0x31, 0xF9, 0xF8, 0x08, 0xC5, 0xD5, 0xE5, 0xF5, 0xC1, 0xD1, 0xE1, 0xF1] : List Byte)) ∧
    (formatOf b).isSome = (lookup b false).isSome ∧
    lookup b true = none

/-- R87, R88, R89: a byte with no entry is rejected as such whatever follows it, and after the prefix byte (decision D5) so is
every second byte. -/
def Obligations.UnadmittedBytesRejectedByName : Prop :=
  (∀ (b : Byte) (rest : List Byte), b ≠ 0xCB → lookup b false = none → decode (b :: rest) = .error (.unsupported b false)) ∧
  (∀ (b : Byte) (rest : List Byte), decode (0xCB :: b :: rest) = .error (.unsupported b true))

/-- R82, R83: a 16-bit immediate is its first byte plus 256 times its second, unsigned; e8 is a signed byte, and its
sign-extension keeps its value. -/
def Obligations.ImmediatesAsTheSpecReadsThem : Prop :=
  (∀ x ∈ ([(0x01, .ldBcD16), (0x11, .ldDeD16), (0x21, .ldHlD16), (0x31, .ldSpD16), (0x08, .ldA16Sp)] :
        List (Byte × (Word → Instr))),
    ∀ b1 b2 : Byte, ∃ v : Word, decode [x.1, b1, b2] = .ok (x.2 v, []) ∧ v.toNat = b1.toNat + 256 * b2.toNat) ∧
  (∀ e : Byte, decode [0xF8, e] = .ok (.ldHlSpE8 e, []) ∧ (sext16 e).toInt = e.toInt ∧ -128 ≤ e.toInt ∧ e.toInt ≤ 127)

/-- R90: an assembler line with an instruction's own operand assembles to the instruction's bytes, an e8 operand to its two's
complement byte, and for every opcode an operand out of range, missing or not wanted assembles to nothing, as does an opcode
with no spelling. That a line is given as opcode byte and operand is the model's choice (log entry 20). -/
def Obligations.AssembleEmitsEncoding : Prop :=
  (∀ i : Instr, assemble ((encode i).headD 0) i.operand = some (encode i)) ∧
  (∀ v : Int, -128 ≤ v → v ≤ 127 → ∃ b : Byte, assemble 0xF8 (some v) = some [0xF8, b] ∧ b.toInt = v) ∧
  (∀ (b0 : Byte) (fmt : Format) (o : Option Int), formatOf b0 = some fmt → fmt.operandOk o = false → assemble b0 o = none) ∧
  (∀ (b0 : Byte) (o : Option Int), formatOf b0 = none → assemble b0 o = none) ∧
  (∀ v : Int, v < -128 ∨ 127 < v → assemble 0xF8 (some v) = none) ∧
  (∀ b0 ∈ ([0x01, 0x11, 0x21, 0x31, 0x08] : List Byte), ∀ v : Int, v < 0 ∨ 0xFFFF < v → assemble b0 (some v) = none) ∧
  (∀ b0 ∈ ([0x01, 0x11, 0x21, 0x31, 0x08, 0xF8] : List Byte), assemble b0 none = none) ∧
  (∀ b0 ∈ ([0xF9, 0xC5, 0xD5, 0xE5, 0xF5, 0xC1, 0xD1, 0xE1, 0xF1] : List Byte), ∀ v : Int, assemble b0 (some v) = none)

/-! ## The driver step -/

/-- R112: when the bytes the AddressSpace answers at PC decode to an instruction, the step is one execute of it after the opcode
fetch, then PC goes to the next opcode and the declared cycle count is emitted. -/
def Obligations.StepRunsDecodedInstruction : Prop :=
  ∀ (s : State) (i : Instr) (b0 b1 b2 : Byte) (rest : List Byte),
    s.fault = none → codeBytes s = (b0, b1, b2) → decode [b0, b1, b2] = .ok (i, rest) →
      step s = completeStep i (exec i (s.beginStep.memRead s.pc).2) ∧
      (s.space = .flatRam →
        b0 = s.mem.read s.pc.toNat ∧ b1 = s.mem.read (s.pc + 1).toNat ∧ b2 = s.mem.read (s.pc + 2).toNat) ∧
      ∀ t, exec i (s.beginStep.memRead s.pc).2 = .next t →
        step s = .next { t with pc := t.pc + 1, cycles := some (cyclesOf i) }

/-- R112, R102, R114 (the spec's own decisions D5, D6, D19): on every state and for every initial accumulator, the step that
decodes an instruction and runs its meaning is the reference driver step over the opcode tables and the Operation lists. -/
def Obligations.StepAgreesWithReferenceDriver : Prop :=
  ∀ (acc0 : Int) (s : State), step s = driverStep acc0 s

/-- R113, R180: a step either gives a next state with its Trace and the declared cycle count of the instruction it fetched, or
raises UnsupportedOpcode; there is no other outcome. That raising is a next state with the fault record set, with registers and
memory as before and no cycle count, rests on R182, the spec's own decision D11, and log entry 4; the driver on its decision D6
(log entry 18). -/
def Obligations.StepOutcomes : Prop :=
  ∀ s : State, s.fault = none →
    ∃ t, step s = .next t ∧
      ((∃ i s1, fetch s.beginStep = .instr i s1 ∧ t.fault = none ∧ t.cycles = some (cyclesOf i) ∧
          ∃ rest, t.trace = .read s.pc :: rest) ∨
       (∃ b x s1, fetch s.beginStep = .unsupported b x s1 ∧
          t = { s with
            fault := some ⟨.unsupportedOpcode, s.pc, b, x⟩, past := t.past, trace := t.trace, cycles := none }))

/-- R32: execute leaves PC at the instruction's last byte, and a step moves it by the instruction's length. -/
def Obligations.StepAdvancesPcByLength : Prop :=
  (∀ (i : Instr) (s : State), ∃ t, exec i s = .next t ∧ t.pc + 1 = s.pc + BitVec.ofNat 16 (encode i).length) ∧
  (∀ (s : State) (i : Instr) (s1 : State), s.fault = none → fetch s.beginStep = .instr i s1 →
    ∃ t, step s = .next t ∧ t.pc = s.pc + BitVec.ofNat 16 (encode i).length)

/-- R69 (decision D20): the Trace of a step that runs an admitted instruction, and the history it joins. -/
def Obligations.StepTraceIsTheTable : Prop :=
  ∀ (s : State) (i : Instr) (s1 : State), s.fault = none → fetch s.beginStep = .instr i s1 →
    ∃ t, step s = .next t ∧ t.past = s.history ∧
      t.trace = .read s.pc ::
        (match i with
        | .ldBcD16 _ => [.read (s.pc + 1), .read (s.pc + 2)]
        | .ldDeD16 _ => [.read (s.pc + 1), .read (s.pc + 2)]
        | .ldHlD16 _ => [.read (s.pc + 1), .read (s.pc + 2)]
        | .ldSpD16 _ => [.read (s.pc + 1), .read (s.pc + 2)]
        | .ldSpHl => []
        | .ldHlSpE8 _ => [.read (s.pc + 1)]
        | .ldA16Sp a =>
          [.read (s.pc + 1), .read (s.pc + 2), .write a (lo s.sp), .write (a + 1) (hi s.sp)]
        | .pushBc => [.write (s.sp - 1) s.b, .write (s.sp - 2) s.c]
        | .pushDe => [.write (s.sp - 1) s.d, .write (s.sp - 2) s.e]
        | .pushHl => [.write (s.sp - 1) s.h, .write (s.sp - 2) s.l]
        | .pushAf => [.write (s.sp - 1) s.a, .write (s.sp - 2) s.f]
        | .popBc => [.read s.sp, .read (s.sp + 1)]
        | .popDe => [.read s.sp, .read (s.sp + 1)]
        | .popHl => [.read s.sp, .read (s.sp + 1)]
        | .popAf => [.read s.sp, .read (s.sp + 1)])

/-- R208 (nine counts by the spec's own decision D4): the cycle count a step emits. -/
def Obligations.StepEmitsDeclaredCycles : Prop :=
  ∀ (s : State) (i : Instr) (s1 : State), s.fault = none → fetch s.beginStep = .instr i s1 →
    ∃ t, step s = .next t ∧
      t.cycles = some (match i with
        | .ldBcD16 _ => 3
        | .ldDeD16 _ => 3
        | .ldHlD16 _ => 3
        | .ldSpD16 _ => 3
        | .ldSpHl => 2
        | .ldHlSpE8 _ => 3
        | .ldA16Sp _ => 5
        | .pushBc => 4
        | .pushDe => 4
        | .pushHl => 4
        | .pushAf => 4
        | .popBc => 3
        | .popDe => 3
        | .popHl => 3
        | .popAf => 3)

/-- R180, R189, R130, R160: every admitted instruction executes in every state, raises nothing, and leaves the fault record, the
AddressSpace bound and the labels of earlier steps alone. -/
def Obligations.EveryInstructionExecutes : Prop :=
  ∀ (i : Instr) (s : State),
    ∃ t, exec i s = .next t ∧ t.fault = s.fault ∧ t.space = s.space ∧ t.past = s.past ∧ t.cycles = s.cycles ∧
      ∃ made, t.trace = s.trace ++ made

/-- R26, R34, R35: only LD HL,SP+e8 and POP AF write F, only POP AF writes A, and B to L, SP, PC and memory are written by the
instructions the table names and by no other. PC is execute's (R32): a step moves it once more. -/
def Obligations.OnlyNamedInstructionsWrite : Prop :=
  ∀ (i : Instr) (s t : State), exec i s = .next t →
    (match i with | .ldHlSpE8 _ => True | .popAf => True | _ => t.f = s.f) ∧
    (match i with | .popAf => True | _ => t.a = s.a) ∧
    (match i with | .ldBcD16 _ => True | .popBc => True | _ => t.b = s.b ∧ t.c = s.c) ∧
    (match i with | .ldDeD16 _ => True | .popDe => True | _ => t.d = s.d ∧ t.e = s.e) ∧
    (match i with | .ldHlD16 _ => True | .ldHlSpE8 _ => True | .popHl => True | _ => t.h = s.h ∧ t.l = s.l) ∧
    (match i with
      | .ldSpD16 _ => True
      | .ldSpHl => True
      | .pushBc => True
      | .pushDe => True
      | .pushHl => True
      | .pushAf => True
      | .popBc => True
      | .popDe => True
      | .popHl => True
      | .popAf => True
      | _ => t.sp = s.sp) ∧
    (match i with
      | .ldA16Sp _ => True
      | .pushBc => True
      | .pushDe => True
      | .pushHl => True
      | .pushAf => True
      | _ => t.mem = s.mem) ∧
    (match i with
      | .ldBcD16 _ => True
      | .ldDeD16 _ => True
      | .ldHlD16 _ => True
      | .ldSpD16 _ => True
      | .ldHlSpE8 _ => True
      | .ldA16Sp _ => True
      | _ => t.pc = s.pc)

/-- R38, R207: with FlatRAM, no step's effect depends on the labels of earlier steps: with another history and other labels it
makes the same next state, the same Trace and the same cycle count. -/
def Obligations.LabelsAreNotObserved : Prop :=
  ∀ (s : State) (past trace : List Transaction) (cycles : Option Nat) (t : State), s.space = .flatRam →
    step s = .next t →
      ∃ t', step { s with past := past, trace := trace, cycles := cycles } = .next t' ∧ t' = { t with past := t'.past }

/-! ## UnsupportedOpcode -/

/-- R181, R182, R183 (the spec's own decision D11): a byte with no entry, and any byte after the prefix byte (decision D5), sets
the fault record and leaves every register, PC, SP, flag and byte of memory; the reads made stay in the Trace. -/
def Obligations.UnsupportedOpcodeRecorded : Prop :=
  ∀ s : State, s.fault = none →
    (∀ b : Byte, s.answer s.pc = b → b ≠ 0xCB → lookup b false = none →
      step s = .next { s with
        fault := some ⟨.unsupportedOpcode, s.pc, b, false⟩, past := s.history, trace := [.read s.pc], cycles := none }) ∧
    (s.answer s.pc = 0xCB →
      step s = .next { s with
        fault := some ⟨.unsupportedOpcode, s.pc, (s.memRead s.pc).2.answer (s.pc + 1), true⟩
        past := s.history, trace := [.read s.pc, .read (s.pc + 1)], cycles := none })

/-- R185, R180: a step records a fault exactly when the opcode byte has no entry in the primary table. -/
def Obligations.FaultExactlyWhenNoEntry : Prop :=
  ∀ s t : State, s.fault = none → step s = .next t → (t.fault = none ↔ (lookup (s.answer s.pc) false).isSome = true)

/-- R40 (decision D11): no fault at launch, a state with a fault record has no step, and nothing the host does clears the
record. -/
def Obligations.FaultRecordIsFinal : Prop :=
  (∀ x : LaunchState, (State.launch x).fault = none) ∧
  (∀ (s : State) (x : FaultInfo), s.fault = some x → step s = .fault (.unsupportedOpcode x)) ∧
  (∀ (act : HostAction) (s t : State) (x : FaultInfo), s.fault = some x → hostAct act s = .next t → t.fault = some x)

/-- R191 (decision D16): a run that ends normally was free of faults all along: it passes through a normal state after every
number of steps up to its own. -/
def Obligations.NormalRunIsNormalThroughout : Prop :=
  ∀ (n : Nat) (s t : State), EndsNormally s n t → ∀ k ≤ n, ∃ u, EndsNormally s k u

/-- R190, R194, R196, R116 (decisions D14, D21, D26): reading state or an Instruction and stopping change nothing; a write of a
register, pair, PC or flag changes that and nothing else; a write to the AddressSpace changes that byte and no other, and keeps
every register; an access that overlaps a step has no meaning (log entry 16). That a host access to a byte begins a Trace of its
own is the model's choice (log entry 12). -/
def Obligations.HostInteractionsBetweenSteps : Prop :=
  ∀ s : State,
    hostAct .runStep s = step s ∧ hostAct .readState s = .next s ∧ hostAct .stop s = .next s ∧
    (∀ b x, hostAct (.readInstruction b x) s = .next s) ∧
    hostAct .overlapStep s = .refused .hostAccessOverlapsStep ∧
    (∀ r v, ∃ t, hostAct (.writeReg8 r v) s = .next t ∧ t.getReg8 r = (if r = .f then v &&& 0xF0 else v) ∧
      (∀ q, q ≠ r → t.getReg8 q = s.getReg8 q) ∧
      t = { s with a := t.a, f := t.f, b := t.b, c := t.c, d := t.d, e := t.e, h := t.h, l := t.l }) ∧
    (∀ v, hostAct (.writePair .af v) s = .next { s with a := hi v, f := lo v &&& 0xF0 } ∧
      hostAct (.writePair .bc v) s = .next { s with b := hi v, c := lo v } ∧
      hostAct (.writePair .de v) s = .next { s with d := hi v, e := lo v } ∧
      hostAct (.writePair .hl v) s = .next { s with h := hi v, l := lo v } ∧
      hostAct (.writePair .sp v) s = .next { s with sp := v }) ∧
    (∀ rr v, ∃ t, hostAct (.writePair rr v) s = .next t ∧ t.getPair rr = (if rr = .af then v &&& 0xFFF0 else v)) ∧
    (∀ v, hostAct (.writePc v) s = .next { s with pc := v }) ∧
    (∀ x v, ∃ t, hostAct (.writeFlag x v) s = .next t ∧ (∀ y, t.flag y = if y = x then v else s.flag y) ∧
      t.f &&& 0x0F = 0 ∧ t = { s with f := t.f }) ∧
    (∀ a v, ∃ t, hostAct (.writeByte a v) s = .next t ∧
      t = { s with mem := t.mem, past := s.history, trace := [.write a v], cycles := none } ∧
      (s.space = .flatRam → s.mem.wf → t.answer a = v) ∧
      (∀ b : Word, b ≠ a → t.mem.read b.toNat = s.mem.read b.toNat) ∧
      (s.space = .flatRam → ∀ b : Word, b ≠ a → t.answer b = s.answer b) ∧
      (∀ k, s.space = .external k → t.mem = s.mem)) ∧
    (∀ a, hostAct (.readByte a) s = .next { s with past := s.history, trace := [.read a], cycles := none })

/-! ## The executor -/

/-- R102: Operations run in the declared order, each on what the earlier ones left. -/
def Obligations.OperationsFoldInOrder : Prop :=
  (∀ x : ExecState, runOps [] x = .ok x) ∧
  (∀ (ops : List MicroOp) (op : MicroOp) (x : ExecState),
    runOps (ops ++ [op]) x = (match runOps ops x with | .ok y => op.run y | .error r => .error r)) ∧
  (∀ (x : Instruction) (acc0 : Int) (s : State) (y : ExecState),
    runOps x.ops ⟨s, acc0, []⟩ = .ok y → x.execute acc0 s = .next y.state)

/-- R103 (decision D12): no entry's result depends on the initial accumulator, whose first Operation ignores it, and every
primitive keeps the accumulator in 0x0000 to 0xFFFF. -/
def Obligations.InitialAccumulatorNeverObserved : Prop :=
  (∀ x ∈ primaryTable, ∀ (acc acc' : Int) (s : State), x.2.execute acc s = x.2.execute acc' s) ∧
  (∀ op ∈ ([.fetchLo, .fetchHi, .pushHi, .pushLo, .popLo, .popHi, .storeSpLo, .storeSpHi, .addSpE8] : List MicroOp),
    ∀ x y : ExecState, 0 ≤ x.acc → x.acc ≤ 0xFFFF → op.run x = .ok y → 0 ≤ y.acc ∧ y.acc ≤ 0xFFFF) ∧
  (∀ (rr : Pair) (x y : ExecState), 0 ≤ x.acc → x.acc ≤ 0xFFFF →
    MicroOp.run (.readPair rr) x = .ok y ∨ MicroOp.run (.writePair rr) x = .ok y → 0 ≤ y.acc ∧ y.acc ≤ 0xFFFF)

/-- R104 (decision D13): a Context field is unset until an Operation of the same execute sets it, reading an unset one is the
fault ContextUnset, and no entry of the table raises it. -/
def Obligations.ContextFieldsUnsetUntilSet : Prop :=
  (∀ (k : Nat) (s : State) (acc : Int), MicroOp.run (.getField k) ⟨s, acc, []⟩ = .error (.contextUnset k)) ∧
  (∀ (k j : Nat) (s : State) (acc : Int),
    runOps [.setField k, .getField j] ⟨s, acc, []⟩ =
      if j = k then .ok ⟨s, acc, [(k, acc)]⟩ else .error (.contextUnset j)) ∧
  (∀ x ∈ primaryTable, ∀ (acc : Int) (s : State), ∃ t, x.2.execute acc s = .next t)

/-- R106, 90_conflicts.md C7: a conditional Operation has its effect when its flag, or the Context field an earlier Operation set,
has the value it asks for, and none otherwise; an unset field is the fault ContextUnset (decision D13). -/
def Obligations.ConditionalOperationElides : Prop :=
  ∀ (op : MicroOp) (y : ExecState),
    (∀ (x : Flag) (v : Bool),
      (y.state.flag x = v → MicroOp.run (.ifFlag x v op) y = op.run y) ∧
      (y.state.flag x ≠ v → MicroOp.run (.ifFlag x v op) y = .ok y)) ∧
    (∀ (k : Nat) (v w : Int), y.ctx.lookup k = some w →
      MicroOp.run (.ifField k v op) y = if w = v then op.run y else .ok y) ∧
    (∀ (k : Nat) (v : Int), y.ctx.lookup k = none → MicroOp.run (.ifField k v op) y = .error (.contextUnset k))

/-- R108, R109, R110: what each fetch, register and stack primitive does to the machine and which accumulator it returns. The
primitives are the spec's own decision D19 and the unbounded accumulator its decision D12; the bits of a negative accumulator
are the model's choice (log entry 14). -/
def Obligations.PrimitiveOperations : Prop :=
  ∀ (s : State) (acc : Int) (ctx : Context),
    (∃ n : Int, n = (s.answer (s.pc + 1)).toNat ∧
      MicroOp.run .fetchLo ⟨s, acc, ctx⟩ =
        .ok ⟨{ s with pc := s.pc + 1, trace := s.trace ++ [.read (s.pc + 1)] }, n, ctx⟩ ∧
      MicroOp.run .fetchHi ⟨s, acc, ctx⟩ =
        .ok ⟨{ s with pc := s.pc + 1, trace := s.trace ++ [.read (s.pc + 1)] }, n * 256 + acc % 256, ctx⟩) ∧
    (∃ n : Int, n = (s.answer s.sp).toNat ∧
      MicroOp.run .popLo ⟨s, acc, ctx⟩ =
        .ok ⟨{ s with sp := s.sp + 1, trace := s.trace ++ [.read s.sp] }, n, ctx⟩ ∧
      MicroOp.run .popHi ⟨s, acc, ctx⟩ =
        .ok ⟨{ s with sp := s.sp + 1, trace := s.trace ++ [.read s.sp] }, n * 256 + acc % 256, ctx⟩) ∧
    (∃ x y : Byte, (x.toNat : Int) = acc / 256 % 256 ∧ (y.toNat : Int) = acc % 256 ∧
      MicroOp.run .pushHi ⟨s, acc, ctx⟩ = .ok ⟨{ s.memWrite (s.sp - 1) x with sp := s.sp - 1 }, acc, ctx⟩ ∧
      MicroOp.run .pushLo ⟨s, acc, ctx⟩ = .ok ⟨{ s.memWrite (s.sp - 1) y with sp := s.sp - 1 }, acc, ctx⟩) ∧
    (∀ rr, MicroOp.run (.readPair rr) ⟨s, acc, ctx⟩ = .ok ⟨s, (s.getPair rr).toNat, ctx⟩) ∧
    (∀ rr, ∃ v : Word, (v.toNat : Int) = acc % 65536 ∧
      MicroOp.run (.writePair rr) ⟨s, acc, ctx⟩ = .ok ⟨s.setPair rr v, acc, ctx⟩)

/-- R111: what the store and ALU primitives do. The primitives are the spec's own decision D19 and the unbounded accumulator its
decision D12, the wrap of the second address D8, Z D7 and the flags' places in F D3; the bits of a negative accumulator are the
model's choice (log entry 14). -/
def Obligations.StoreAndAddPrimitives : Prop :=
  ∀ (s : State) (acc : Int) (ctx : Context), ∃ (a : Word) (e : Byte) (n : Int),
    (a.toNat : Int) = acc % 65536 ∧ (e.toNat : Int) = acc % 256 ∧ n = ((s.sp.toNat : Int) + e.toInt) % 65536 ∧
    MicroOp.run .storeSpLo ⟨s, acc, ctx⟩ = .ok ⟨s.memWrite a (lo s.sp), acc, ctx⟩ ∧
    MicroOp.run .storeSpHi ⟨s, acc, ctx⟩ = .ok ⟨s.memWrite (a + 1) (hi s.sp), acc, ctx⟩ ∧
    MicroOp.run .addSpE8 ⟨s, acc, ctx⟩ =
      .ok ⟨{ s with
        f := (if 16 ≤ s.sp.toNat % 16 + e.toNat % 16 then 0x20 else 0) |||
          (if 256 ≤ s.sp.toNat % 256 + e.toNat then 0x10 else 0) }, n, ctx⟩

/-! ## 16-bit loads and SP arithmetic: what each instruction does, and that it changes nothing else

An instruction with an immediate has a clause that says its table entry, which fetches the immediate bytes, does what `exec`
does for the operand those bytes make. -/

/-- R131: `LD BC,d16`. -/
def Obligations.LdBcD16LoadsImmediate : Prop :=
  ∀ (d16 : Word) (s : State),
    decode [0x01, lo d16, hi d16] = .ok (.ldBcD16 d16, []) ∧
    lookup 0x01 false = some ⟨"LD BC,d16", 3, [.fetchLo, .fetchHi, .writePair .bc]⟩ ∧
    (∀ acc0 x, lookup 0x01 false = some x → x.execute acc0 s = exec (.ldBcD16 (cat s.fetchNext.2.fetchNext.1 s.fetchNext.1)) s) ∧
    cyclesOf (.ldBcD16 d16) = 3 ∧
    exec (.ldBcD16 d16) s = .next { s with
      b := hi d16, c := lo d16, pc := s.pc + 2, trace := s.trace ++ [.read (s.pc + 1), .read (s.pc + 2)] }

/-- R132: `LD DE,d16`; its opcode byte and its cycle count are the spec's own decisions D2 and D4. -/
def Obligations.LdDeD16LoadsImmediate : Prop :=
  ∀ (d16 : Word) (s : State),
    decode [0x11, lo d16, hi d16] = .ok (.ldDeD16 d16, []) ∧
    lookup 0x11 false = some ⟨"LD DE,d16", 3, [.fetchLo, .fetchHi, .writePair .de]⟩ ∧
    (∀ acc0 x, lookup 0x11 false = some x → x.execute acc0 s = exec (.ldDeD16 (cat s.fetchNext.2.fetchNext.1 s.fetchNext.1)) s) ∧
    cyclesOf (.ldDeD16 d16) = 3 ∧
    exec (.ldDeD16 d16) s = .next { s with
      d := hi d16, e := lo d16, pc := s.pc + 2, trace := s.trace ++ [.read (s.pc + 1), .read (s.pc + 2)] }

/-- R133: `LD HL,d16`; its opcode byte and its cycle count are the spec's own decisions D2 and D4. -/
def Obligations.LdHlD16LoadsImmediate : Prop :=
  ∀ (d16 : Word) (s : State),
    decode [0x21, lo d16, hi d16] = .ok (.ldHlD16 d16, []) ∧
    lookup 0x21 false = some ⟨"LD HL,d16", 3, [.fetchLo, .fetchHi, .writePair .hl]⟩ ∧
    (∀ acc0 x, lookup 0x21 false = some x → x.execute acc0 s = exec (.ldHlD16 (cat s.fetchNext.2.fetchNext.1 s.fetchNext.1)) s) ∧
    cyclesOf (.ldHlD16 d16) = 3 ∧
    exec (.ldHlD16 d16) s = .next { s with
      h := hi d16, l := lo d16, pc := s.pc + 2, trace := s.trace ++ [.read (s.pc + 1), .read (s.pc + 2)] }

/-- R134: `LD SP,d16`; its opcode byte and its cycle count are the spec's own decisions D2 and D4. -/
def Obligations.LdSpD16LoadsImmediate : Prop :=
  ∀ (d16 : Word) (s : State),
    decode [0x31, lo d16, hi d16] = .ok (.ldSpD16 d16, []) ∧
    lookup 0x31 false = some ⟨"LD SP,d16", 3, [.fetchLo, .fetchHi, .writePair .sp]⟩ ∧
    (∀ acc0 x, lookup 0x31 false = some x → x.execute acc0 s = exec (.ldSpD16 (cat s.fetchNext.2.fetchNext.1 s.fetchNext.1)) s) ∧
    cyclesOf (.ldSpD16 d16) = 3 ∧
    exec (.ldSpD16 d16) s = .next { s with
      sp := d16, pc := s.pc + 2, trace := s.trace ++ [.read (s.pc + 1), .read (s.pc + 2)] }

/-- R135: `LD SP,HL`. -/
def Obligations.LdSpHlCopies : Prop :=
  ∀ s : State,
    decode [0xF9] = .ok (.ldSpHl, []) ∧
    lookup 0xF9 false = some ⟨"LD SP,HL", 2, [.readPair .hl, .writePair .sp]⟩ ∧
    cyclesOf .ldSpHl = 2 ∧
    exec .ldSpHl s = .next { s with sp := cat s.h s.l }

/-- R136: `LD HL,SP+e8`. Z is 0 also for a zero result, which is the spec's own decision D7, and the flags' places in F are its
decision D3. -/
def Obligations.LdHlSpE8AddsSignedByte : Prop :=
  ∀ (e8 : Byte) (s : State),
    decode [0xF8, e8] = .ok (.ldHlSpE8 e8, []) ∧
    lookup 0xF8 false = some ⟨"LD HL,SP+e8", 3, [.fetchLo, .addSpE8, .writePair .hl]⟩ ∧
    (∀ acc0 x, lookup 0xF8 false = some x → x.execute acc0 s = exec (.ldHlSpE8 s.fetchNext.1) s) ∧
    cyclesOf (.ldHlSpE8 e8) = 3 ∧
    ∃ t, exec (.ldHlSpE8 e8) s = .next t ∧
      t = { s with f := t.f, h := t.h, l := t.l, pc := s.pc + 1, trace := s.trace ++ [.read (s.pc + 1)] } ∧
      t.f = (if 16 ≤ s.sp.toNat % 16 + e8.toNat % 16 then 0x20 else 0) |||
        (if 256 ≤ s.sp.toNat % 256 + e8.toNat then 0x10 else 0) ∧
      ((cat t.h t.l).toNat : Int) = ((s.sp.toNat : Int) + e8.toInt) % 65536

/-- R138: half-carry and carry of SP + e8 come from the unsigned addition of the low bytes alone, whatever the sign of e8 and
the high byte of SP; the result is the full signed sum modulo 2^16. -/
def Obligations.LowByteFlagPolicy : Prop :=
  ∀ (e8 : Byte) (s : State),
    (halfCarryLow s.sp e8 = true ↔ 0x10 ≤ s.sp.toNat % 16 + e8.toNat % 16) ∧
    (carryLow s.sp e8 = true ↔ 0x100 ≤ s.sp.toNat % 256 + e8.toNat) ∧
    ((addSigned s.sp e8).toNat : Int) = ((s.sp.toNat : Int) + e8.toInt) % 65536 ∧
    (∀ v : Word, lo v = lo s.sp → halfCarryLow v e8 = halfCarryLow s.sp e8 ∧ carryLow v e8 = carryLow s.sp e8) ∧
    ∃ t, exec (.ldHlSpE8 e8) s = .next t ∧
      t.isH = halfCarryLow s.sp e8 ∧ t.isC = carryLow s.sp e8 ∧ t.getPair .hl = addSigned s.sp e8

/-- R137: `LD (a16),SP`. That the second address wraps from 0xFFFF to 0x0000 is the spec's own decision D8. -/
def Obligations.LdA16SpStores : Prop :=
  ∀ (a16 : Word) (s : State),
    decode [0x08, lo a16, hi a16] = .ok (.ldA16Sp a16, []) ∧
    lookup 0x08 false = some ⟨"LD (a16),SP", 5, [.fetchLo, .fetchHi, .storeSpLo, .storeSpHi]⟩ ∧
    (∀ acc0 x, lookup 0x08 false = some x → x.execute acc0 s = exec (.ldA16Sp (cat s.fetchNext.2.fetchNext.1 s.fetchNext.1)) s) ∧
    cyclesOf (.ldA16Sp a16) = 5 ∧
    ∃ t, exec (.ldA16Sp a16) s = .next t ∧
      t = { s with
        pc := s.pc + 2, mem := t.mem
        trace := s.trace ++
          [.read (s.pc + 1), .read (s.pc + 2), .write a16 (lo s.sp), .write (a16 + 1) (hi s.sp)] } ∧
      (s.space = .flatRam → s.mem.wf → t.mem.read a16.toNat = lo s.sp ∧ t.mem.read (a16 + 1).toNat = hi s.sp) ∧
      (∀ a : Word, a ≠ a16 → a ≠ a16 + 1 → t.mem.read a.toNat = s.mem.read a.toNat) ∧
      (∀ k, s.space = .external k → t.mem = s.mem)

/-- R33, R31, R32, R34, R160, R161, R166: PC and SP arithmetic wraps modulo 2^16, immediates past 0xFFFF included, and no
instruction needs an aligned PC. Where PC stands in execute and how far it moves is the spec's inference (R31, R32), and that a
step moves PC once more is its own decision D6 (log entry 18). -/
def Obligations.ProgramCounterAndStackWrap : Prop :=
  ∀ s : State,
    (∀ i : Instr, ∃ t, exec i s = .next t ∧ (t.pc.toNat + 1) % 65536 = (s.pc.toNat + (encode i).length) % 65536) ∧
    (∀ i ∈ ([.pushBc, .pushDe, .pushHl, .pushAf] : List Instr),
      ∃ t, exec i s = .next t ∧ t.sp.toNat = (s.sp.toNat + 65534) % 65536) ∧
    (∀ i ∈ ([.popBc, .popDe, .popHl, .popAf] : List Instr),
      ∃ t, exec i s = .next t ∧ t.sp.toNat = (s.sp.toNat + 2) % 65536) ∧
    (s.pc = 0xFFFF → ∀ d16, exec (.ldBcD16 d16) s = .next { s with
      b := hi d16, c := lo d16, pc := 0x0001, trace := s.trace ++ [.read 0x0000, .read 0x0001] }) ∧
    (s.pc = 0xFFFF → s.fault = none → ∀ s1, fetch s.beginStep = .instr .ldSpHl s1 →
      ∃ t, step s = .next t ∧ t.pc = 0x0000) ∧
    (s.sp = 0x0000 → ∃ t, exec .pushBc s = .next t ∧ t.sp = 0xFFFE ∧
      t.trace = s.trace ++ [.write 0xFFFF s.b, .write 0xFFFE s.c]) ∧
    (s.sp = 0xFFFF → ∃ t, exec .popDe s = .next t ∧ t.sp = 0x0001 ∧
      t.trace = s.trace ++ [.read 0xFFFF, .read 0x0000])

/-! ## PUSH and POP: what each instruction does, and that it changes nothing else -/

/-- R161: `PUSH BC`; its opcode byte and its cycle count are the spec's own decisions D2 and D4. -/
def Obligations.PushBcStoresPair : Prop :=
  ∀ s : State,
    decode [0xC5] = .ok (.pushBc, []) ∧
    lookup 0xC5 false = some ⟨"PUSH BC", 4, [.readPair .bc, .pushHi, .pushLo]⟩ ∧ cyclesOf .pushBc = 4 ∧
    ∃ t, exec .pushBc s = .next t ∧
      t = { s with
        sp := s.sp - 2, mem := t.mem, trace := s.trace ++ [.write (s.sp - 1) s.b, .write (s.sp - 2) s.c] } ∧
      (s.space = .flatRam → s.mem.wf →
        t.mem.read (s.sp - 1).toNat = s.b ∧ t.mem.read (s.sp - 2).toNat = s.c) ∧
      (∀ a : Word, a ≠ s.sp - 1 → a ≠ s.sp - 2 → t.mem.read a.toNat = s.mem.read a.toNat) ∧
      (∀ k, s.space = .external k → t.mem = s.mem)

/-- R162: `PUSH DE`; its opcode byte and its cycle count are the spec's own decisions D2 and D4. -/
def Obligations.PushDeStoresPair : Prop :=
  ∀ s : State,
    decode [0xD5] = .ok (.pushDe, []) ∧
    lookup 0xD5 false = some ⟨"PUSH DE", 4, [.readPair .de, .pushHi, .pushLo]⟩ ∧ cyclesOf .pushDe = 4 ∧
    ∃ t, exec .pushDe s = .next t ∧
      t = { s with
        sp := s.sp - 2, mem := t.mem, trace := s.trace ++ [.write (s.sp - 1) s.d, .write (s.sp - 2) s.e] } ∧
      (s.space = .flatRam → s.mem.wf →
        t.mem.read (s.sp - 1).toNat = s.d ∧ t.mem.read (s.sp - 2).toNat = s.e) ∧
      (∀ a : Word, a ≠ s.sp - 1 → a ≠ s.sp - 2 → t.mem.read a.toNat = s.mem.read a.toNat) ∧
      (∀ k, s.space = .external k → t.mem = s.mem)

/-- R163: `PUSH HL`; its opcode byte and its cycle count are the spec's own decisions D2 and D4. -/
def Obligations.PushHlStoresPair : Prop :=
  ∀ s : State,
    decode [0xE5] = .ok (.pushHl, []) ∧
    lookup 0xE5 false = some ⟨"PUSH HL", 4, [.readPair .hl, .pushHi, .pushLo]⟩ ∧ cyclesOf .pushHl = 4 ∧
    ∃ t, exec .pushHl s = .next t ∧
      t = { s with
        sp := s.sp - 2, mem := t.mem, trace := s.trace ++ [.write (s.sp - 1) s.h, .write (s.sp - 2) s.l] } ∧
      (s.space = .flatRam → s.mem.wf →
        t.mem.read (s.sp - 1).toNat = s.h ∧ t.mem.read (s.sp - 2).toNat = s.l) ∧
      (∀ a : Word, a ≠ s.sp - 1 → a ≠ s.sp - 2 → t.mem.read a.toNat = s.mem.read a.toNat) ∧
      (∀ k, s.space = .external k → t.mem = s.mem)

/-- R164: `PUSH AF`; in a state that meets R23's invariant the byte stored for F has its low nibble zero. -/
def Obligations.PushAfStoresPair : Prop :=
  ∀ s : State,
    decode [0xF5] = .ok (.pushAf, []) ∧
    lookup 0xF5 false = some ⟨"PUSH AF", 4, [.readPair .af, .pushHi, .pushLo]⟩ ∧ cyclesOf .pushAf = 4 ∧
    ∃ t, exec .pushAf s = .next t ∧
      t = { s with
        sp := s.sp - 2, mem := t.mem, trace := s.trace ++ [.write (s.sp - 1) s.a, .write (s.sp - 2) s.f] } ∧
      (s.space = .flatRam → s.mem.wf →
        t.mem.read (s.sp - 1).toNat = s.a ∧ t.mem.read (s.sp - 2).toNat = s.f ∧
        (s.f &&& 0x0F = 0 → t.mem.read (s.sp - 2).toNat &&& 0x0F = 0)) ∧
      (∀ a : Word, a ≠ s.sp - 1 → a ≠ s.sp - 2 → t.mem.read a.toNat = s.mem.read a.toNat) ∧
      (∀ k, s.space = .external k → t.mem = s.mem)

/-- R165: `POP BC`; its opcode byte and its cycle count are the spec's own decisions D2 and D4. The second byte is answered after
the first read. -/
def Obligations.PopBcLoadsPair : Prop :=
  ∀ s : State,
    decode [0xC1] = .ok (.popBc, []) ∧
    lookup 0xC1 false = some ⟨"POP BC", 3, [.popLo, .popHi, .writePair .bc]⟩ ∧ cyclesOf .popBc = 3 ∧
    exec .popBc s = .next { s with
      b := (s.memRead s.sp).2.answer (s.sp + 1), c := s.answer s.sp
      sp := s.sp + 2, trace := s.trace ++ [.read s.sp, .read (s.sp + 1)] } ∧
    (s.space = .flatRam →
      s.answer s.sp = s.mem.read s.sp.toNat ∧ (s.memRead s.sp).2.answer (s.sp + 1) = s.mem.read (s.sp + 1).toNat)

/-- R166: `POP DE`; its opcode byte and its cycle count are the spec's own decisions D2 and D4. -/
def Obligations.PopDeLoadsPair : Prop :=
  ∀ s : State,
    decode [0xD1] = .ok (.popDe, []) ∧
    lookup 0xD1 false = some ⟨"POP DE", 3, [.popLo, .popHi, .writePair .de]⟩ ∧ cyclesOf .popDe = 3 ∧
    exec .popDe s = .next { s with
      d := (s.memRead s.sp).2.answer (s.sp + 1), e := s.answer s.sp
      sp := s.sp + 2, trace := s.trace ++ [.read s.sp, .read (s.sp + 1)] } ∧
    (s.space = .flatRam →
      s.answer s.sp = s.mem.read s.sp.toNat ∧ (s.memRead s.sp).2.answer (s.sp + 1) = s.mem.read (s.sp + 1).toNat)

/-- R167: `POP HL`; its opcode byte and its cycle count are the spec's own decisions D2 and D4. -/
def Obligations.PopHlLoadsPair : Prop :=
  ∀ s : State,
    decode [0xE1] = .ok (.popHl, []) ∧
    lookup 0xE1 false = some ⟨"POP HL", 3, [.popLo, .popHi, .writePair .hl]⟩ ∧ cyclesOf .popHl = 3 ∧
    exec .popHl s = .next { s with
      h := (s.memRead s.sp).2.answer (s.sp + 1), l := s.answer s.sp
      sp := s.sp + 2, trace := s.trace ++ [.read s.sp, .read (s.sp + 1)] } ∧
    (s.space = .flatRam →
      s.answer s.sp = s.mem.read s.sp.toNat ∧ (s.memRead s.sp).2.answer (s.sp + 1) = s.mem.read (s.sp + 1).toNat)

/-- R168: `POP AF`; F is masked, and the flags' places in F are the spec's own decision D3. -/
def Obligations.PopAfLoadsPairMasked : Prop :=
  ∀ s : State,
    decode [0xF1] = .ok (.popAf, []) ∧
    lookup 0xF1 false = some ⟨"POP AF", 3, [.popLo, .popHi, .writePair .af]⟩ ∧ cyclesOf .popAf = 3 ∧
    exec .popAf s = .next { s with
      a := (s.memRead s.sp).2.answer (s.sp + 1), f := s.answer s.sp &&& 0xF0
      sp := s.sp + 2, trace := s.trace ++ [.read s.sp, .read (s.sp + 1)] } ∧
    (∀ t, exec .popAf s = .next t →
      t.isZ = (s.answer s.sp).getLsbD 7 ∧ t.isN = (s.answer s.sp).getLsbD 6 ∧
      t.isH = (s.answer s.sp).getLsbD 5 ∧ t.isC = (s.answer s.sp).getLsbD 4) ∧
    (s.space = .flatRam →
      s.answer s.sp = s.mem.read s.sp.toNat ∧ (s.memRead s.sp).2.answer (s.sp + 1) = s.mem.read (s.sp + 1).toNat)

/-- R160: with FlatRAM, POP right after PUSH of the same pair restores the pair, SP and every other register; for AF this needs
F[3:0] = 0, which R23 gives every reachable state. -/
def Obligations.PopAfterPushRestores : Prop :=
  ∀ s : State, s.space = .flatRam → s.mem.wf → s.f &&& 0x0F = 0 →
    ∀ x ∈ ([(.pushBc, .popBc), (.pushDe, .popDe), (.pushHl, .popHl), (.pushAf, .popAf)] : List (Instr × Instr)),
      ∃ t u, exec x.1 s = .next t ∧ exec x.2 t = .next u ∧ u = { s with mem := t.mem, trace := u.trace }
end

