-- ==== Sys2Proof/Laws/Bits.lean ====
section
/-! SUPPORT. The algebra of bytes and 16-bit values (R8): taking apart what was put together and the reverse, the values as
numbers, and the flag byte's mask (R23). -/

namespace Sys2Proof.Machine

theorem cat_toNat (h l : Byte) : (cat h l).toNat = h.toNat * 256 + l.toNat := by
  have hb := h.isLt
  have hl := l.isLt
  simp only [cat, zext16, BitVec.toNat_or, BitVec.toNat_shiftLeft, BitVec.toNat_setWidth]
  rw [Nat.mod_eq_of_lt (a := h.toNat) (by omega), Nat.mod_eq_of_lt (a := l.toNat) (by omega), Nat.shiftLeft_eq,
    Nat.mod_eq_of_lt (by omega), Nat.mul_comm, ← Nat.two_pow_add_eq_or_of_lt hl]

theorem hi_toNat (v : Word) : (hi v).toNat = v.toNat / 256 := by
  have := v.isLt
  simp only [hi, BitVec.extractLsb'_toNat, Nat.shiftRight_eq_div_pow]
  omega

theorem lo_toNat (v : Word) : (lo v).toNat = v.toNat % 256 := by
  simp [lo, BitVec.extractLsb'_toNat]

@[simp] theorem hi_cat (h l : Byte) : hi (cat h l) = h := by
  apply BitVec.eq_of_toNat_eq
  rw [hi_toNat, cat_toNat]
  omega

@[simp] theorem lo_cat (h l : Byte) : lo (cat h l) = l := by
  apply BitVec.eq_of_toNat_eq
  rw [lo_toNat, cat_toNat]
  omega

@[simp] theorem cat_hi_lo (v : Word) : cat (hi v) (lo v) = v := by
  apply BitVec.eq_of_toNat_eq
  rw [cat_toNat, hi_toNat, lo_toNat]
  omega

theorem cat_injective {h l h' l' : Byte} (e : cat h l = cat h' l') : h = h' ∧ l = l' :=
  ⟨by simpa using congrArg hi e, by simpa using congrArg lo e⟩

@[simp] theorem zext16_toNat (b : Byte) : (zext16 b).toNat = b.toNat := by
  simp [zext16]; omega

@[simp] theorem lo_zext16 (b : Byte) : lo (zext16 b) = b := by
  apply BitVec.eq_of_toNat_eq; rw [lo_toNat, zext16_toNat]; omega

theorem hi_and (v w : Word) : hi (v &&& w) = hi v &&& hi w := by simp [hi, BitVec.extractLsb'_and]

theorem lo_and (v w : Word) : lo (v &&& w) = lo v &&& lo w := by simp [lo, BitVec.extractLsb'_and]

/-- The mask of F seen through AF (R29). -/
theorem cat_mask (v : Word) : cat (hi v) (lo v &&& 0xF0) = v &&& 0xFFF0 := by
  have hm : ∀ b : Byte, b &&& hi 0xFFF0 = b := by decide
  rw [← cat_hi_lo (v &&& 0xFFF0), hi_and, lo_and, hm]
  rfl

theorem word_ne_succ (a : Word) : a + 1 ≠ a := by bv_omega

theorem word_sub_ne (a : Word) : a - 1 ≠ a - 2 := by bv_omega

/-- A byte stored through the mask of F has no low bit. -/
@[simp] theorem mask_low_zero (v : Byte) : v &&& 0xF0#8 &&& 0x0F#8 = 0#8 := by
  rw [BitVec.and_assoc]; simp

/-- The mask of F changes nothing in a byte whose low nibble is zero. -/
theorem mask_of_low_zero {v : Byte} (h : v &&& 0x0F = 0) : v &&& 0xF0 = v := by
  revert h; revert v; decide

end Sys2Proof.Machine
end

