-- ==== Sys2Proof/Laws/Decode.lean ====
section
/-! SUPPORT. Facts about decoding: the formats and the rows name the same opcode bytes, and the prefix byte is none of them. -/

namespace Sys2Proof

open Sys2Proof.Machine

/-- A row exists exactly where a format does. -/
theorem instrOf_isSome (b0 b1 b2 : Byte) : (instrOf b0 b1 b2).isSome = (formatOf b0).isSome := by
  unfold instrOf formatOf
  split <;> rfl

theorem instrOf_none_iff (b0 b1 b2 : Byte) : instrOf b0 b1 b2 = none ↔ formatOf b0 = none := by
  rw [← Option.isNone_iff_eq_none, ← Option.isNone_iff_eq_none, ← Option.not_isSome, ← Option.not_isSome, instrOf_isSome]

@[simp] theorem formatOf_prefixByte : formatOf prefixByte = none := rfl

/-- The format of a row's instruction is the row's. -/
theorem formatOf_eq_of_instrOf {b0 b1 b2 : Byte} {i : Instr} (h : instrOf b0 b1 b2 = some i) :
    formatOf b0 = some i.format := by
  unfold instrOf at h
  split at h <;> cases h <;> rfl

/-- The length of an encoding is the format's (R80). -/
theorem encode_length (i : Instr) : (encode i).length = 1 + i.format.operandBytes := by
  cases i <;> rfl

/-- What a row is made from: its encoding's bytes, as far as the format has them. -/
theorem encode_of_instrOf {b0 b1 b2 : Byte} {i : Instr} (h : instrOf b0 b1 b2 = some i) :
    encode i = b0 :: [b1, b2].take i.format.operandBytes := by
  unfold instrOf at h
  split at h <;> cases h <;> simp [encode, Instr.format, Format.operandBytes]

/-- After the prefix byte no second byte has an entry (R88). -/
@[simp] theorem decode_prefix (b1 : Byte) (rest : List Byte) :
    decode (prefixByte :: b1 :: rest) = .error (.unsupported b1 true) := rfl

/-- A byte with no entry is rejected whatever follows it (R87, R89). -/
theorem decode_unsupported {b0 : Byte} (hp : b0 ≠ prefixByte) (hf : formatOf b0 = none) (rest : List Byte) :
    decode (b0 :: rest) = .error (.unsupported b0 false) := by
  have e : decode (b0 :: rest) = _ := if_neg hp
  rw [e, hf]

/-- A byte with an entry decodes to its row's instruction, as long as the operand's bytes are there. -/
theorem decode_row {b0 : Byte} {rest : List Byte} {i : Instr} (hp : b0 ≠ prefixByte)
    (hi : instrOf b0 (rest.getD 0 0) (rest.getD 1 0) = some i) :
    decode (b0 :: rest) =
      if rest.length < i.format.operandBytes then .error (.truncated b0)
      else .ok (i, rest.drop i.format.operandBytes) := by
  have e : decode (b0 :: rest) = _ := if_neg hp
  rw [e, hi, formatOf_eq_of_instrOf hi]

/-- Every way `decode` can answer an instruction. -/
theorem decode_ok {bs : List Byte} {i : Instr} {rest : List Byte} (h : decode bs = .ok (i, rest)) :
    ∃ b0 tail, bs = b0 :: tail ∧ b0 ≠ prefixByte ∧ instrOf b0 (tail.getD 0 0) (tail.getD 1 0) = some i ∧
      i.format.operandBytes ≤ tail.length ∧ rest = tail.drop i.format.operandBytes := by
  cases bs with
  | nil => cases h
  | cons b0 tail =>
    by_cases hp : b0 = prefixByte
    · subst hp
      cases tail <;> cases h
    · cases hi : instrOf b0 (tail.getD 0 0) (tail.getD 1 0) with
      | none =>
        rw [decode_unsupported hp ((instrOf_none_iff _ _ _).1 hi)] at h
        cases h
      | some j =>
        rw [decode_row hp hi] at h
        split at h
        · cases h
        · cases h
          exact ⟨b0, tail, rfl, hp, hi, by omega, rfl⟩

end Sys2Proof
end

