-- ==== Sys2Proof/Laws/Memory.lean ====
section
/-! SUPPORT. FlatRAM's laws (R54): a write is read back at its address and nowhere else, and it keeps the canonical form, in
which equal contents are equal lists. -/

namespace Sys2Proof.Machine

@[simp] theorem Memory.read_nil (a : Nat) : Memory.read [] a = unlistedByte := rfl

/-- A byte that no entry names reads as an unlisted one. -/
theorem Memory.read_of_not_mem {m : Memory} {a : Nat} (h : ∀ x ∈ m, x.1 ≠ a) : Memory.read m a = unlistedByte := by
  induction m with
  | nil => rfl
  | cons x rest ih =>
    have hx := h x (by simp)
    simp only [Memory.read, hx, if_false]
    exact ih (fun y hy => h y (by simp [hy]))

/-- A write changes no other byte, whatever the list. -/
theorem Memory.read_write_ne (m : Memory) {a b : Nat} (v : Byte) (h : b ≠ a) :
    Memory.read (Memory.write m a v) b = Memory.read m b := by
  induction m with
  | nil =>
    unfold Memory.write
    split
    · rfl
    · simp [Memory.read, Ne.symm h]
  | cons x rest ih =>
    obtain ⟨k, w⟩ := x
    unfold Memory.write
    split
    · split
      · rfl
      · simp [Memory.read, Ne.symm h]
    · split
      · next hk =>
        subst hk
        split <;> simp [Memory.read, Ne.symm h]
      · simp only [Memory.read, ih]

/-- A write is read back, in a canonical list. -/
theorem Memory.read_write_eq {m : Memory} (hm : m.wf) (a : Nat) (v : Byte) : Memory.read (Memory.write m a v) a = v := by
  obtain ⟨hs, -⟩ := hm
  induction m with
  | nil =>
    unfold Memory.write
    split
    · next h => exact h.symm
    · simp [Memory.read]
  | cons x rest ih =>
    obtain ⟨k, w⟩ := x
    obtain ⟨hlt, hrest⟩ := List.pairwise_cons.1 hs
    unfold Memory.write
    split
    · next hak =>
      split
      · next hv =>
        rw [hv]
        apply Memory.read_of_not_mem
        rintro ⟨k', w'⟩ hy
        rcases List.mem_cons.1 hy with h | h
        · cases h; simp; omega
        · have := hlt _ h; simp at this ⊢; omega
      · simp [Memory.read]
    · split
      · next hk =>
        subst hk
        split
        · next hv =>
          rw [hv]
          apply Memory.read_of_not_mem
          intro y hy
          have := hlt y hy
          simp at this; omega
        · simp [Memory.read]
      · next hk =>
        simp only [Memory.read, hk, if_false]
        exact ih hrest

/-- An entry of a list after a write is the written one or an old one. -/
theorem Memory.mem_write {m : Memory} {a : Nat} {v : Byte} {x : Host.Cell} (h : x ∈ Memory.write m a v) :
    (x = (a, v) ∧ v ≠ unlistedByte) ∨ x ∈ m := by
  induction m with
  | nil =>
    unfold Memory.write at h
    split at h
    · simp at h
    · next hv => simp at h; exact .inl ⟨h, hv⟩
  | cons y rest ih =>
    obtain ⟨k, w⟩ := y
    unfold Memory.write at h
    split at h
    · split at h
      · exact .inr h
      · next hv =>
        rcases List.mem_cons.1 h with h | h
        · exact .inl ⟨h, hv⟩
        · exact .inr h
    · split at h
      · split at h
        · exact .inr (List.mem_cons_of_mem _ h)
        · next hv =>
          rcases List.mem_cons.1 h with h | h
          · exact .inl ⟨h, hv⟩
          · exact .inr (List.mem_cons_of_mem _ h)
      · rcases List.mem_cons.1 h with h | h
        · exact .inr (by simp [h])
        · rcases ih h with h | h
          · exact .inl h
          · exact .inr (List.mem_cons_of_mem _ h)

/-- A write keeps the canonical form. -/
theorem Memory.wf_write {m : Memory} (hm : m.wf) {a : Nat} (ha : a < 65536) (v : Byte) : (Memory.write m a v).wf := by
  obtain ⟨hs, hc⟩ := hm
  refine ⟨?_, fun x hx => ?_⟩
  · clear hc
    induction m with
    | nil => unfold Memory.write; split <;> simp
    | cons x rest ih =>
      obtain ⟨k, w⟩ := x
      obtain ⟨hlt, hrest⟩ := List.pairwise_cons.1 hs
      unfold Memory.write
      split
      · next hak =>
        split
        · exact hs
        · refine List.pairwise_cons.2 ⟨fun y hy => ?_, hs⟩
          rcases List.mem_cons.1 hy with h | h
          · subst h; exact hak
          · have := hlt y h; simp at this ⊢; omega
      · split
        · next hk =>
          subst hk
          split
          · exact hrest
          · exact List.pairwise_cons.2 ⟨hlt, hrest⟩
        · refine List.pairwise_cons.2 ⟨fun y hy => ?_, ih hrest⟩
          rcases Memory.mem_write hy with h | h
          · rw [h.1]; simp; omega
          · exact hlt y h
  · rcases Memory.mem_write hx with h | h
    · rw [h.1]; exact ⟨h.2, ha⟩
    · exact hc x h

/-- Placing bytes keeps the canonical form. -/
theorem Memory.wf_writeBytes {m : Memory} (hm : m.wf) (a : Word) (bs : List Byte) : (Memory.writeBytes m a bs).wf := by
  induction bs generalizing m a with
  | nil => exact hm
  | cons b bs ih => exact ih (Memory.wf_write hm a.isLt b) (a + 1)

/-- Canonical lists that read the same are the same list. -/
theorem Memory.ext_of_wf {m n : Memory} (hm : m.wf) (hn : n.wf) (h : ∀ a, Memory.read m a = Memory.read n a) : m = n := by
  induction m generalizing n with
  | nil =>
    cases n with
    | nil => rfl
    | cons y ys =>
      have := h y.1
      simp only [Memory.read, if_true] at this
      exact absurd this.symm (hn.2 y (by simp)).1
  | cons x xs ih =>
    cases n with
    | nil =>
      have := h x.1
      simp only [Memory.read, if_true] at this
      exact absurd this (hm.2 x (by simp)).1
    | cons y ys =>
      obtain ⟨hx, hxs⟩ := List.pairwise_cons.1 hm.1
      obtain ⟨hy, hys⟩ := List.pairwise_cons.1 hn.1
      have hxn := (hm.2 x (by simp)).1
      have hyn := (hn.2 y (by simp)).1
      have key : x.1 = y.1 := by
        rcases Nat.lt_trichotomy x.1 y.1 with hlt | heq | hlt
        · have e := h x.1
          rw [Memory.read_of_not_mem (m := y :: ys)] at e
          · simp only [Memory.read, if_true] at e; exact absurd e hxn
          · intro z hz
            rcases List.mem_cons.1 hz with rfl | hz
            · omega
            · have := hy z hz; omega
        · exact heq
        · have e := h y.1
          rw [Memory.read_of_not_mem (m := x :: xs)] at e
          · simp only [Memory.read, if_true] at e; exact absurd e.symm hyn
          · intro z hz
            rcases List.mem_cons.1 hz with rfl | hz
            · omega
            · have := hx z hz; omega
      have hv : x.2 = y.2 := by
        have e := h x.1
        simpa [Memory.read, key] using e
      have hxy : x = y := Prod.ext key hv
      subst hxy
      congr 1
      refine ih ⟨hxs, fun z hz => hm.2 z (by simp [hz])⟩ ⟨hys, fun z hz => hn.2 z (by simp [hz])⟩ (fun a => ?_)
      by_cases ha : x.1 = a
      · subst ha
        rw [Memory.read_of_not_mem (m := xs), Memory.read_of_not_mem (m := ys)]
        · intro z hz; have := hy z hz; omega
        · intro z hz; have := hx z hz; omega
      · have e := h a
        simpa [Memory.read, ha] using e

end Sys2Proof.Machine
end

