-- ==== Sys2Proof/Laws/State.lean ====
section
/-! SUPPORT. One lemma per field of State and named update: what the update leaves of that field, or what it makes of it.
Later proofs cite these and unfold no update. -/

namespace Sys2Proof.Machine

@[simp] theorem State.setF_a (s : State) (v : Byte) : (s.setF v).a = s.a := rfl
@[simp] theorem State.setF_b (s : State) (v : Byte) : (s.setF v).b = s.b := rfl
@[simp] theorem State.setF_c (s : State) (v : Byte) : (s.setF v).c = s.c := rfl
@[simp] theorem State.setF_d (s : State) (v : Byte) : (s.setF v).d = s.d := rfl
@[simp] theorem State.setF_e (s : State) (v : Byte) : (s.setF v).e = s.e := rfl
@[simp] theorem State.setF_h (s : State) (v : Byte) : (s.setF v).h = s.h := rfl
@[simp] theorem State.setF_l (s : State) (v : Byte) : (s.setF v).l = s.l := rfl
@[simp] theorem State.setF_pc (s : State) (v : Byte) : (s.setF v).pc = s.pc := rfl
@[simp] theorem State.setF_sp (s : State) (v : Byte) : (s.setF v).sp = s.sp := rfl
@[simp] theorem State.setF_space (s : State) (v : Byte) : (s.setF v).space = s.space := rfl
@[simp] theorem State.setF_mem (s : State) (v : Byte) : (s.setF v).mem = s.mem := rfl
@[simp] theorem State.setF_fault (s : State) (v : Byte) : (s.setF v).fault = s.fault := rfl
@[simp] theorem State.setF_past (s : State) (v : Byte) : (s.setF v).past = s.past := rfl
@[simp] theorem State.setF_trace (s : State) (v : Byte) : (s.setF v).trace = s.trace := rfl
@[simp] theorem State.setF_cycles (s : State) (v : Byte) : (s.setF v).cycles = s.cycles := rfl

@[simp] theorem State.setF_f (s : State) (v : Byte) : (s.setF v).f = v &&& 0xF0 := rfl

@[simp] theorem State.setReg8_pc (s : State) (r : Reg8) (v : Byte) : (s.setReg8 r v).pc = s.pc := by cases r <;> rfl
@[simp] theorem State.setReg8_sp (s : State) (r : Reg8) (v : Byte) : (s.setReg8 r v).sp = s.sp := by cases r <;> rfl
@[simp] theorem State.setReg8_space (s : State) (r : Reg8) (v : Byte) : (s.setReg8 r v).space = s.space := by cases r <;> rfl
@[simp] theorem State.setReg8_mem (s : State) (r : Reg8) (v : Byte) : (s.setReg8 r v).mem = s.mem := by cases r <;> rfl
@[simp] theorem State.setReg8_fault (s : State) (r : Reg8) (v : Byte) : (s.setReg8 r v).fault = s.fault := by cases r <;> rfl
@[simp] theorem State.setReg8_past (s : State) (r : Reg8) (v : Byte) : (s.setReg8 r v).past = s.past := by cases r <;> rfl
@[simp] theorem State.setReg8_trace (s : State) (r : Reg8) (v : Byte) : (s.setReg8 r v).trace = s.trace := by cases r <;> rfl
@[simp] theorem State.setReg8_cycles (s : State) (r : Reg8) (v : Byte) : (s.setReg8 r v).cycles = s.cycles := by cases r <;> rfl

@[simp] theorem State.setPair_pc (s : State) (rr : Pair) (v : Word) : (s.setPair rr v).pc = s.pc := by cases rr <;> rfl
@[simp] theorem State.setPair_space (s : State) (rr : Pair) (v : Word) : (s.setPair rr v).space = s.space := by cases rr <;> rfl
@[simp] theorem State.setPair_mem (s : State) (rr : Pair) (v : Word) : (s.setPair rr v).mem = s.mem := by cases rr <;> rfl
@[simp] theorem State.setPair_fault (s : State) (rr : Pair) (v : Word) : (s.setPair rr v).fault = s.fault := by cases rr <;> rfl
@[simp] theorem State.setPair_past (s : State) (rr : Pair) (v : Word) : (s.setPair rr v).past = s.past := by cases rr <;> rfl
@[simp] theorem State.setPair_trace (s : State) (rr : Pair) (v : Word) : (s.setPair rr v).trace = s.trace := by cases rr <;> rfl
@[simp] theorem State.setPair_cycles (s : State) (rr : Pair) (v : Word) : (s.setPair rr v).cycles = s.cycles := by cases rr <;> rfl

/-! A write of one pair, spelled out (R28). -/

@[simp] theorem State.setPair_af (s : State) (v : Word) : s.setPair .af v = { s with a := hi v, f := lo v &&& 0xF0 } := rfl
@[simp] theorem State.setPair_bc (s : State) (v : Word) : s.setPair .bc v = { s with b := hi v, c := lo v } := rfl
@[simp] theorem State.setPair_de (s : State) (v : Word) : s.setPair .de v = { s with d := hi v, e := lo v } := rfl
@[simp] theorem State.setPair_hl (s : State) (v : Word) : s.setPair .hl v = { s with h := hi v, l := lo v } := rfl
@[simp] theorem State.setPair_sp_eq (s : State) (v : Word) : s.setPair .sp v = { s with sp := v } := rfl

@[simp] theorem State.setPc_a (s : State) (v : Word) : (s.setPc v).a = s.a := rfl
@[simp] theorem State.setPc_f (s : State) (v : Word) : (s.setPc v).f = s.f := rfl
@[simp] theorem State.setPc_b (s : State) (v : Word) : (s.setPc v).b = s.b := rfl
@[simp] theorem State.setPc_c (s : State) (v : Word) : (s.setPc v).c = s.c := rfl
@[simp] theorem State.setPc_d (s : State) (v : Word) : (s.setPc v).d = s.d := rfl
@[simp] theorem State.setPc_e (s : State) (v : Word) : (s.setPc v).e = s.e := rfl
@[simp] theorem State.setPc_h (s : State) (v : Word) : (s.setPc v).h = s.h := rfl
@[simp] theorem State.setPc_l (s : State) (v : Word) : (s.setPc v).l = s.l := rfl
@[simp] theorem State.setPc_sp (s : State) (v : Word) : (s.setPc v).sp = s.sp := rfl
@[simp] theorem State.setPc_space (s : State) (v : Word) : (s.setPc v).space = s.space := rfl
@[simp] theorem State.setPc_mem (s : State) (v : Word) : (s.setPc v).mem = s.mem := rfl
@[simp] theorem State.setPc_fault (s : State) (v : Word) : (s.setPc v).fault = s.fault := rfl
@[simp] theorem State.setPc_past (s : State) (v : Word) : (s.setPc v).past = s.past := rfl
@[simp] theorem State.setPc_trace (s : State) (v : Word) : (s.setPc v).trace = s.trace := rfl
@[simp] theorem State.setPc_cycles (s : State) (v : Word) : (s.setPc v).cycles = s.cycles := rfl

@[simp] theorem State.setPc_pc (s : State) (v : Word) : (s.setPc v).pc = v := rfl

@[simp] theorem State.setSp_a (s : State) (v : Word) : (s.setSp v).a = s.a := rfl
@[simp] theorem State.setSp_f (s : State) (v : Word) : (s.setSp v).f = s.f := rfl
@[simp] theorem State.setSp_b (s : State) (v : Word) : (s.setSp v).b = s.b := rfl
@[simp] theorem State.setSp_c (s : State) (v : Word) : (s.setSp v).c = s.c := rfl
@[simp] theorem State.setSp_d (s : State) (v : Word) : (s.setSp v).d = s.d := rfl
@[simp] theorem State.setSp_e (s : State) (v : Word) : (s.setSp v).e = s.e := rfl
@[simp] theorem State.setSp_h (s : State) (v : Word) : (s.setSp v).h = s.h := rfl
@[simp] theorem State.setSp_l (s : State) (v : Word) : (s.setSp v).l = s.l := rfl
@[simp] theorem State.setSp_pc (s : State) (v : Word) : (s.setSp v).pc = s.pc := rfl
@[simp] theorem State.setSp_space (s : State) (v : Word) : (s.setSp v).space = s.space := rfl
@[simp] theorem State.setSp_mem (s : State) (v : Word) : (s.setSp v).mem = s.mem := rfl
@[simp] theorem State.setSp_fault (s : State) (v : Word) : (s.setSp v).fault = s.fault := rfl
@[simp] theorem State.setSp_past (s : State) (v : Word) : (s.setSp v).past = s.past := rfl
@[simp] theorem State.setSp_trace (s : State) (v : Word) : (s.setSp v).trace = s.trace := rfl
@[simp] theorem State.setSp_cycles (s : State) (v : Word) : (s.setSp v).cycles = s.cycles := rfl

@[simp] theorem State.setSp_sp (s : State) (v : Word) : (s.setSp v).sp = v := rfl

@[simp] theorem State.setFlag_a (s : State) (x : Flag) (v : Bool) : (s.setFlag x v).a = s.a := rfl
@[simp] theorem State.setFlag_b (s : State) (x : Flag) (v : Bool) : (s.setFlag x v).b = s.b := rfl
@[simp] theorem State.setFlag_c (s : State) (x : Flag) (v : Bool) : (s.setFlag x v).c = s.c := rfl
@[simp] theorem State.setFlag_d (s : State) (x : Flag) (v : Bool) : (s.setFlag x v).d = s.d := rfl
@[simp] theorem State.setFlag_e (s : State) (x : Flag) (v : Bool) : (s.setFlag x v).e = s.e := rfl
@[simp] theorem State.setFlag_h (s : State) (x : Flag) (v : Bool) : (s.setFlag x v).h = s.h := rfl
@[simp] theorem State.setFlag_l (s : State) (x : Flag) (v : Bool) : (s.setFlag x v).l = s.l := rfl
@[simp] theorem State.setFlag_pc (s : State) (x : Flag) (v : Bool) : (s.setFlag x v).pc = s.pc := rfl
@[simp] theorem State.setFlag_sp (s : State) (x : Flag) (v : Bool) : (s.setFlag x v).sp = s.sp := rfl
@[simp] theorem State.setFlag_space (s : State) (x : Flag) (v : Bool) : (s.setFlag x v).space = s.space := rfl
@[simp] theorem State.setFlag_mem (s : State) (x : Flag) (v : Bool) : (s.setFlag x v).mem = s.mem := rfl
@[simp] theorem State.setFlag_fault (s : State) (x : Flag) (v : Bool) : (s.setFlag x v).fault = s.fault := rfl
@[simp] theorem State.setFlag_past (s : State) (x : Flag) (v : Bool) : (s.setFlag x v).past = s.past := rfl
@[simp] theorem State.setFlag_trace (s : State) (x : Flag) (v : Bool) : (s.setFlag x v).trace = s.trace := rfl
@[simp] theorem State.setFlag_cycles (s : State) (x : Flag) (v : Bool) : (s.setFlag x v).cycles = s.cycles := rfl

@[simp] theorem State.setAddFlags_a (s : State) (v : Word) (x : Byte) : (s.setAddFlags v x).a = s.a := rfl
@[simp] theorem State.setAddFlags_b (s : State) (v : Word) (x : Byte) : (s.setAddFlags v x).b = s.b := rfl
@[simp] theorem State.setAddFlags_c (s : State) (v : Word) (x : Byte) : (s.setAddFlags v x).c = s.c := rfl
@[simp] theorem State.setAddFlags_d (s : State) (v : Word) (x : Byte) : (s.setAddFlags v x).d = s.d := rfl
@[simp] theorem State.setAddFlags_e (s : State) (v : Word) (x : Byte) : (s.setAddFlags v x).e = s.e := rfl
@[simp] theorem State.setAddFlags_h (s : State) (v : Word) (x : Byte) : (s.setAddFlags v x).h = s.h := rfl
@[simp] theorem State.setAddFlags_l (s : State) (v : Word) (x : Byte) : (s.setAddFlags v x).l = s.l := rfl
@[simp] theorem State.setAddFlags_pc (s : State) (v : Word) (x : Byte) : (s.setAddFlags v x).pc = s.pc := rfl
@[simp] theorem State.setAddFlags_sp (s : State) (v : Word) (x : Byte) : (s.setAddFlags v x).sp = s.sp := rfl
@[simp] theorem State.setAddFlags_space (s : State) (v : Word) (x : Byte) : (s.setAddFlags v x).space = s.space := rfl
@[simp] theorem State.setAddFlags_mem (s : State) (v : Word) (x : Byte) : (s.setAddFlags v x).mem = s.mem := rfl
@[simp] theorem State.setAddFlags_fault (s : State) (v : Word) (x : Byte) : (s.setAddFlags v x).fault = s.fault := rfl
@[simp] theorem State.setAddFlags_past (s : State) (v : Word) (x : Byte) : (s.setAddFlags v x).past = s.past := rfl
@[simp] theorem State.setAddFlags_trace (s : State) (v : Word) (x : Byte) : (s.setAddFlags v x).trace = s.trace := rfl
@[simp] theorem State.setAddFlags_cycles (s : State) (v : Word) (x : Byte) : (s.setAddFlags v x).cycles = s.cycles := rfl

@[simp] theorem State.log_a (s : State) (x : Transaction) : (s.log x).a = s.a := rfl
@[simp] theorem State.log_f (s : State) (x : Transaction) : (s.log x).f = s.f := rfl
@[simp] theorem State.log_b (s : State) (x : Transaction) : (s.log x).b = s.b := rfl
@[simp] theorem State.log_c (s : State) (x : Transaction) : (s.log x).c = s.c := rfl
@[simp] theorem State.log_d (s : State) (x : Transaction) : (s.log x).d = s.d := rfl
@[simp] theorem State.log_e (s : State) (x : Transaction) : (s.log x).e = s.e := rfl
@[simp] theorem State.log_h (s : State) (x : Transaction) : (s.log x).h = s.h := rfl
@[simp] theorem State.log_l (s : State) (x : Transaction) : (s.log x).l = s.l := rfl
@[simp] theorem State.log_pc (s : State) (x : Transaction) : (s.log x).pc = s.pc := rfl
@[simp] theorem State.log_sp (s : State) (x : Transaction) : (s.log x).sp = s.sp := rfl
@[simp] theorem State.log_space (s : State) (x : Transaction) : (s.log x).space = s.space := rfl
@[simp] theorem State.log_mem (s : State) (x : Transaction) : (s.log x).mem = s.mem := rfl
@[simp] theorem State.log_fault (s : State) (x : Transaction) : (s.log x).fault = s.fault := rfl
@[simp] theorem State.log_past (s : State) (x : Transaction) : (s.log x).past = s.past := rfl
@[simp] theorem State.log_cycles (s : State) (x : Transaction) : (s.log x).cycles = s.cycles := rfl

@[simp] theorem State.log_trace (s : State) (x : Transaction) : (s.log x).trace = s.trace ++ [x] := rfl

@[simp] theorem State.memRead_a (s : State) (a : Word) : (s.memRead a).2.a = s.a := rfl
@[simp] theorem State.memRead_f (s : State) (a : Word) : (s.memRead a).2.f = s.f := rfl
@[simp] theorem State.memRead_b (s : State) (a : Word) : (s.memRead a).2.b = s.b := rfl
@[simp] theorem State.memRead_c (s : State) (a : Word) : (s.memRead a).2.c = s.c := rfl
@[simp] theorem State.memRead_d (s : State) (a : Word) : (s.memRead a).2.d = s.d := rfl
@[simp] theorem State.memRead_e (s : State) (a : Word) : (s.memRead a).2.e = s.e := rfl
@[simp] theorem State.memRead_h (s : State) (a : Word) : (s.memRead a).2.h = s.h := rfl
@[simp] theorem State.memRead_l (s : State) (a : Word) : (s.memRead a).2.l = s.l := rfl
@[simp] theorem State.memRead_pc (s : State) (a : Word) : (s.memRead a).2.pc = s.pc := rfl
@[simp] theorem State.memRead_sp (s : State) (a : Word) : (s.memRead a).2.sp = s.sp := rfl
@[simp] theorem State.memRead_space (s : State) (a : Word) : (s.memRead a).2.space = s.space := rfl
@[simp] theorem State.memRead_mem (s : State) (a : Word) : (s.memRead a).2.mem = s.mem := rfl
@[simp] theorem State.memRead_fault (s : State) (a : Word) : (s.memRead a).2.fault = s.fault := rfl
@[simp] theorem State.memRead_past (s : State) (a : Word) : (s.memRead a).2.past = s.past := rfl
@[simp] theorem State.memRead_cycles (s : State) (a : Word) : (s.memRead a).2.cycles = s.cycles := rfl

@[simp] theorem State.memRead_trace (s : State) (a : Word) : (s.memRead a).2.trace = s.trace ++ [.read a] := rfl

@[simp] theorem State.memWrite_a (s : State) (a : Word) (v : Byte) : (s.memWrite a v).a = s.a := by
  unfold State.memWrite; split <;> rfl
@[simp] theorem State.memWrite_f (s : State) (a : Word) (v : Byte) : (s.memWrite a v).f = s.f := by
  unfold State.memWrite; split <;> rfl
@[simp] theorem State.memWrite_b (s : State) (a : Word) (v : Byte) : (s.memWrite a v).b = s.b := by
  unfold State.memWrite; split <;> rfl
@[simp] theorem State.memWrite_c (s : State) (a : Word) (v : Byte) : (s.memWrite a v).c = s.c := by
  unfold State.memWrite; split <;> rfl
@[simp] theorem State.memWrite_d (s : State) (a : Word) (v : Byte) : (s.memWrite a v).d = s.d := by
  unfold State.memWrite; split <;> rfl
@[simp] theorem State.memWrite_e (s : State) (a : Word) (v : Byte) : (s.memWrite a v).e = s.e := by
  unfold State.memWrite; split <;> rfl
@[simp] theorem State.memWrite_h (s : State) (a : Word) (v : Byte) : (s.memWrite a v).h = s.h := by
  unfold State.memWrite; split <;> rfl
@[simp] theorem State.memWrite_l (s : State) (a : Word) (v : Byte) : (s.memWrite a v).l = s.l := by
  unfold State.memWrite; split <;> rfl
@[simp] theorem State.memWrite_pc (s : State) (a : Word) (v : Byte) : (s.memWrite a v).pc = s.pc := by
  unfold State.memWrite; split <;> rfl
@[simp] theorem State.memWrite_sp (s : State) (a : Word) (v : Byte) : (s.memWrite a v).sp = s.sp := by
  unfold State.memWrite; split <;> rfl
@[simp] theorem State.memWrite_space (s : State) (a : Word) (v : Byte) : (s.memWrite a v).space = s.space := by
  unfold State.memWrite; split <;> rfl
@[simp] theorem State.memWrite_fault (s : State) (a : Word) (v : Byte) : (s.memWrite a v).fault = s.fault := by
  unfold State.memWrite; split <;> rfl
@[simp] theorem State.memWrite_past (s : State) (a : Word) (v : Byte) : (s.memWrite a v).past = s.past := by
  unfold State.memWrite; split <;> rfl
@[simp] theorem State.memWrite_cycles (s : State) (a : Word) (v : Byte) : (s.memWrite a v).cycles = s.cycles := by
  unfold State.memWrite; split <;> rfl

@[simp] theorem State.memWrite_trace (s : State) (a : Word) (v : Byte) : (s.memWrite a v).trace = s.trace ++ [.write a v] := by
  unfold State.memWrite; split <;> rfl

@[simp] theorem State.beginStep_a (s : State) : (s.beginStep).a = s.a := rfl
@[simp] theorem State.beginStep_f (s : State) : (s.beginStep).f = s.f := rfl
@[simp] theorem State.beginStep_b (s : State) : (s.beginStep).b = s.b := rfl
@[simp] theorem State.beginStep_c (s : State) : (s.beginStep).c = s.c := rfl
@[simp] theorem State.beginStep_d (s : State) : (s.beginStep).d = s.d := rfl
@[simp] theorem State.beginStep_e (s : State) : (s.beginStep).e = s.e := rfl
@[simp] theorem State.beginStep_h (s : State) : (s.beginStep).h = s.h := rfl
@[simp] theorem State.beginStep_l (s : State) : (s.beginStep).l = s.l := rfl
@[simp] theorem State.beginStep_pc (s : State) : (s.beginStep).pc = s.pc := rfl
@[simp] theorem State.beginStep_sp (s : State) : (s.beginStep).sp = s.sp := rfl
@[simp] theorem State.beginStep_space (s : State) : (s.beginStep).space = s.space := rfl
@[simp] theorem State.beginStep_mem (s : State) : (s.beginStep).mem = s.mem := rfl
@[simp] theorem State.beginStep_fault (s : State) : (s.beginStep).fault = s.fault := rfl

@[simp] theorem State.beginStep_past (s : State) : s.beginStep.past = s.history := rfl
@[simp] theorem State.beginStep_trace (s : State) : s.beginStep.trace = [] := rfl
@[simp] theorem State.beginStep_cycles (s : State) : s.beginStep.cycles = none := rfl

@[simp] theorem State.fetchOperand_a (s : State) : (s.fetchOperand).a = s.a := rfl
@[simp] theorem State.fetchOperand_f (s : State) : (s.fetchOperand).f = s.f := rfl
@[simp] theorem State.fetchOperand_b (s : State) : (s.fetchOperand).b = s.b := rfl
@[simp] theorem State.fetchOperand_c (s : State) : (s.fetchOperand).c = s.c := rfl
@[simp] theorem State.fetchOperand_d (s : State) : (s.fetchOperand).d = s.d := rfl
@[simp] theorem State.fetchOperand_e (s : State) : (s.fetchOperand).e = s.e := rfl
@[simp] theorem State.fetchOperand_h (s : State) : (s.fetchOperand).h = s.h := rfl
@[simp] theorem State.fetchOperand_l (s : State) : (s.fetchOperand).l = s.l := rfl
@[simp] theorem State.fetchOperand_sp (s : State) : (s.fetchOperand).sp = s.sp := rfl
@[simp] theorem State.fetchOperand_space (s : State) : (s.fetchOperand).space = s.space := rfl
@[simp] theorem State.fetchOperand_mem (s : State) : (s.fetchOperand).mem = s.mem := rfl
@[simp] theorem State.fetchOperand_fault (s : State) : (s.fetchOperand).fault = s.fault := rfl
@[simp] theorem State.fetchOperand_past (s : State) : (s.fetchOperand).past = s.past := rfl
@[simp] theorem State.fetchOperand_cycles (s : State) : (s.fetchOperand).cycles = s.cycles := rfl

@[simp] theorem State.fetchOperand_pc (s : State) : s.fetchOperand.pc = s.pc + 1 := rfl
@[simp] theorem State.fetchOperand_trace (s : State) : s.fetchOperand.trace = s.trace ++ [.read (s.pc + 1)] := rfl

@[simp] theorem State.pushByte_a (s : State) (v : Byte) : (s.pushByte v).a = s.a := by simp [State.pushByte]
@[simp] theorem State.pushByte_f (s : State) (v : Byte) : (s.pushByte v).f = s.f := by simp [State.pushByte]
@[simp] theorem State.pushByte_b (s : State) (v : Byte) : (s.pushByte v).b = s.b := by simp [State.pushByte]
@[simp] theorem State.pushByte_c (s : State) (v : Byte) : (s.pushByte v).c = s.c := by simp [State.pushByte]
@[simp] theorem State.pushByte_d (s : State) (v : Byte) : (s.pushByte v).d = s.d := by simp [State.pushByte]
@[simp] theorem State.pushByte_e (s : State) (v : Byte) : (s.pushByte v).e = s.e := by simp [State.pushByte]
@[simp] theorem State.pushByte_h (s : State) (v : Byte) : (s.pushByte v).h = s.h := by simp [State.pushByte]
@[simp] theorem State.pushByte_l (s : State) (v : Byte) : (s.pushByte v).l = s.l := by simp [State.pushByte]
@[simp] theorem State.pushByte_pc (s : State) (v : Byte) : (s.pushByte v).pc = s.pc := by simp [State.pushByte]
@[simp] theorem State.pushByte_space (s : State) (v : Byte) : (s.pushByte v).space = s.space := by simp [State.pushByte]
@[simp] theorem State.pushByte_fault (s : State) (v : Byte) : (s.pushByte v).fault = s.fault := by simp [State.pushByte]
@[simp] theorem State.pushByte_past (s : State) (v : Byte) : (s.pushByte v).past = s.past := by simp [State.pushByte]
@[simp] theorem State.pushByte_cycles (s : State) (v : Byte) : (s.pushByte v).cycles = s.cycles := by simp [State.pushByte]

@[simp] theorem State.pushByte_sp (s : State) (v : Byte) : (s.pushByte v).sp = s.sp - 1 := by simp [State.pushByte]
@[simp] theorem State.pushByte_trace (s : State) (v : Byte) : (s.pushByte v).trace = s.trace ++ [.write (s.sp - 1) v] := by
  simp [State.pushByte]

@[simp] theorem State.popByte_a (s : State) : (s.popByte.2).a = s.a := rfl
@[simp] theorem State.popByte_f (s : State) : (s.popByte.2).f = s.f := rfl
@[simp] theorem State.popByte_b (s : State) : (s.popByte.2).b = s.b := rfl
@[simp] theorem State.popByte_c (s : State) : (s.popByte.2).c = s.c := rfl
@[simp] theorem State.popByte_d (s : State) : (s.popByte.2).d = s.d := rfl
@[simp] theorem State.popByte_e (s : State) : (s.popByte.2).e = s.e := rfl
@[simp] theorem State.popByte_h (s : State) : (s.popByte.2).h = s.h := rfl
@[simp] theorem State.popByte_l (s : State) : (s.popByte.2).l = s.l := rfl
@[simp] theorem State.popByte_pc (s : State) : (s.popByte.2).pc = s.pc := rfl
@[simp] theorem State.popByte_space (s : State) : (s.popByte.2).space = s.space := rfl
@[simp] theorem State.popByte_mem (s : State) : (s.popByte.2).mem = s.mem := rfl
@[simp] theorem State.popByte_fault (s : State) : (s.popByte.2).fault = s.fault := rfl
@[simp] theorem State.popByte_past (s : State) : (s.popByte.2).past = s.past := rfl
@[simp] theorem State.popByte_cycles (s : State) : (s.popByte.2).cycles = s.cycles := rfl

@[simp] theorem State.popByte_sp (s : State) : s.popByte.2.sp = s.sp + 1 := rfl
@[simp] theorem State.popByte_trace (s : State) : s.popByte.2.trace = s.trace ++ [.read s.sp] := rfl

@[simp] theorem State.raiseUnsupported_a (s : State) (p : Word) (x : Byte) (y : Bool) : (s.raiseUnsupported p x y).a = s.a := rfl
@[simp] theorem State.raiseUnsupported_f (s : State) (p : Word) (x : Byte) (y : Bool) : (s.raiseUnsupported p x y).f = s.f := rfl
@[simp] theorem State.raiseUnsupported_b (s : State) (p : Word) (x : Byte) (y : Bool) : (s.raiseUnsupported p x y).b = s.b := rfl
@[simp] theorem State.raiseUnsupported_c (s : State) (p : Word) (x : Byte) (y : Bool) : (s.raiseUnsupported p x y).c = s.c := rfl
@[simp] theorem State.raiseUnsupported_d (s : State) (p : Word) (x : Byte) (y : Bool) : (s.raiseUnsupported p x y).d = s.d := rfl
@[simp] theorem State.raiseUnsupported_e (s : State) (p : Word) (x : Byte) (y : Bool) : (s.raiseUnsupported p x y).e = s.e := rfl
@[simp] theorem State.raiseUnsupported_h (s : State) (p : Word) (x : Byte) (y : Bool) : (s.raiseUnsupported p x y).h = s.h := rfl
@[simp] theorem State.raiseUnsupported_l (s : State) (p : Word) (x : Byte) (y : Bool) : (s.raiseUnsupported p x y).l = s.l := rfl
@[simp] theorem State.raiseUnsupported_pc (s : State) (p : Word) (x : Byte) (y : Bool) : (s.raiseUnsupported p x y).pc = s.pc := rfl
@[simp] theorem State.raiseUnsupported_sp (s : State) (p : Word) (x : Byte) (y : Bool) : (s.raiseUnsupported p x y).sp = s.sp := rfl
@[simp] theorem State.raiseUnsupported_space (s : State) (p : Word) (x : Byte) (y : Bool) : (s.raiseUnsupported p x y).space = s.space := rfl
@[simp] theorem State.raiseUnsupported_mem (s : State) (p : Word) (x : Byte) (y : Bool) : (s.raiseUnsupported p x y).mem = s.mem := rfl
@[simp] theorem State.raiseUnsupported_past (s : State) (p : Word) (x : Byte) (y : Bool) : (s.raiseUnsupported p x y).past = s.past := rfl
@[simp] theorem State.raiseUnsupported_trace (s : State) (p : Word) (x : Byte) (y : Bool) : (s.raiseUnsupported p x y).trace = s.trace := rfl
@[simp] theorem State.raiseUnsupported_cycles (s : State) (p : Word) (x : Byte) (y : Bool) : (s.raiseUnsupported p x y).cycles = s.cycles := rfl

@[simp] theorem State.raiseUnsupported_fault (s : State) (p : Word) (x : Byte) (y : Bool) :
    (s.raiseUnsupported p x y).fault = some ⟨.unsupportedOpcode, p, x, y⟩ := rfl

@[simp] theorem State.withCode_a (s : State) (bs : List Byte) : (s.withCode bs).a = s.a := rfl
@[simp] theorem State.withCode_f (s : State) (bs : List Byte) : (s.withCode bs).f = s.f := rfl
@[simp] theorem State.withCode_b (s : State) (bs : List Byte) : (s.withCode bs).b = s.b := rfl
@[simp] theorem State.withCode_c (s : State) (bs : List Byte) : (s.withCode bs).c = s.c := rfl
@[simp] theorem State.withCode_d (s : State) (bs : List Byte) : (s.withCode bs).d = s.d := rfl
@[simp] theorem State.withCode_e (s : State) (bs : List Byte) : (s.withCode bs).e = s.e := rfl
@[simp] theorem State.withCode_h (s : State) (bs : List Byte) : (s.withCode bs).h = s.h := rfl
@[simp] theorem State.withCode_l (s : State) (bs : List Byte) : (s.withCode bs).l = s.l := rfl
@[simp] theorem State.withCode_pc (s : State) (bs : List Byte) : (s.withCode bs).pc = s.pc := rfl
@[simp] theorem State.withCode_sp (s : State) (bs : List Byte) : (s.withCode bs).sp = s.sp := rfl
@[simp] theorem State.withCode_past (s : State) (bs : List Byte) : (s.withCode bs).past = s.past := rfl
@[simp] theorem State.withCode_trace (s : State) (bs : List Byte) : (s.withCode bs).trace = s.trace := rfl
@[simp] theorem State.withCode_cycles (s : State) (bs : List Byte) : (s.withCode bs).cycles = s.cycles := rfl

@[simp] theorem State.withCode_space (s : State) (bs : List Byte) : (s.withCode bs).space = .flatRam := rfl
@[simp] theorem State.withCode_fault (s : State) (bs : List Byte) : (s.withCode bs).fault = none := rfl

end Sys2Proof.Machine
end

