-- ==== Sys2Proof/Laws/Ops.lean ====
section
/-! SUPPORT. One lemma for each shared operation that says all it can do: transactions on the AddressSpace, the stack, the
16-bit store and the flag writes. -/

namespace Sys2Proof.Machine

/-! ## Transactions -/

theorem State.answer_flatRam {s : State} (h : s.space = .flatRam) (a : Word) : s.answer a = s.mem.read a.toNat := by
  simp [State.answer, h]

/-- An answer depends on the AddressSpace, its contents and its history, and on nothing else (R38, R53). -/
theorem State.answer_congr {s t : State} (hs : s.space = t.space) (hm : s.mem = t.mem) (hh : s.history = t.history)
    (a : Word) : s.answer a = t.answer a := by
  simp only [State.answer, hs, hm, hh]

@[simp] theorem State.memRead_fst (s : State) (a : Word) : (s.memRead a).1 = s.answer a := rfl

@[simp] theorem State.memRead_snd (s : State) (a : Word) : (s.memRead a).2 = s.log (.read a) := rfl

@[simp] theorem State.fetchNext_fst (s : State) : s.fetchNext.1 = s.answer (s.pc + 1) := rfl

@[simp] theorem State.fetchNext_snd (s : State) : s.fetchNext.2 = s.fetchOperand := rfl

@[simp] theorem State.popByte_fst (s : State) : s.popByte.1 = s.answer s.sp := rfl

@[simp] theorem State.history_log (s : State) (x : Transaction) : (s.log x).history = x :: s.history := by
  simp [State.history]

@[simp] theorem State.history_beginStep (s : State) : s.beginStep.history = s.history := by
  simp [State.history]

@[simp] theorem State.history_memWrite (s : State) (a : Word) (v : Byte) :
    (s.memWrite a v).history = .write a v :: s.history := by
  simp [State.history]

@[simp] theorem State.history_fetchOperand (s : State) : s.fetchOperand.history = .read (s.pc + 1) :: s.history := by
  simp [State.history]

theorem State.memWrite_flatRam {s : State} (h : s.space = .flatRam) (a : Word) (v : Byte) :
    s.memWrite a v = { s with mem := s.mem.write a.toNat v, trace := s.trace ++ [.write a v] } := by
  simp [State.memWrite, h, State.log]

/-- R53: for an instance other than FlatRAM a write only joins the history. -/
theorem State.memWrite_external {s : State} {k : Nat} (h : s.space = .external k) (a : Word) (v : Byte) :
    s.memWrite a v = s.log (.write a v) := by
  simp [State.memWrite, h]

/-- Everything a write transaction does. -/
theorem State.memWrite_eq (s : State) (a : Word) (v : Byte) :
    s.memWrite a v = { s with mem := (s.memWrite a v).mem, trace := s.trace ++ [.write a v] } := by
  unfold State.memWrite
  split <;> rfl

/-- A write transaction does not look at SP. -/
theorem State.memWrite_setSp (s : State) (x a : Word) (v : Byte) :
    (s.setSp x).memWrite a v = (s.memWrite a v).setSp x := by
  unfold State.memWrite
  simp only [State.setSp_space]
  split <;> rfl

theorem State.memWrite_mem_external {s : State} {k : Nat} (h : s.space = .external k) (a : Word) (v : Byte) :
    (s.memWrite a v).mem = s.mem := by
  simp [State.memWrite_external h]

theorem State.memWrite_read_eq {s : State} (h : s.space = .flatRam) (hm : s.mem.wf) (a : Word) (v : Byte) :
    (s.memWrite a v).mem.read a.toNat = v := by
  simp [State.memWrite_flatRam h, Memory.read_write_eq hm]

/-- The frame of a write: every other byte reads as before, whatever the AddressSpace. -/
theorem State.memWrite_read_ne (s : State) {a b : Word} (v : Byte) (h : b ≠ a) :
    (s.memWrite a v).mem.read b.toNat = s.mem.read b.toNat := by
  have hn : b.toNat ≠ a.toNat := fun e => h (BitVec.eq_of_toNat_eq e)
  cases hs : s.space with
  | flatRam => simp [State.memWrite_flatRam hs, Memory.read_write_ne _ _ hn]
  | external k => simp [State.memWrite_external hs]

theorem State.memWrite_wf {s : State} (hm : s.mem.wf) (a : Word) (v : Byte) : (s.memWrite a v).mem.wf := by
  cases hs : s.space with
  | flatRam => simpa [State.memWrite_flatRam hs] using Memory.wf_write hm a.isLt v
  | external k => simpa [State.memWrite_external hs] using hm

/-- Two writes to addresses that differ, read back (PUSH, LD (a16),SP). -/
theorem State.memWrite_memWrite_read {s : State} (h : s.space = .flatRam) (hm : s.mem.wf) {a b : Word} (hab : a ≠ b)
    (v w : Byte) :
    ((s.memWrite a v).memWrite b w).mem.read a.toNat = v ∧ ((s.memWrite a v).memWrite b w).mem.read b.toNat = w := by
  constructor
  · rw [State.memWrite_read_ne _ _ hab, State.memWrite_read_eq h hm]
  · exact State.memWrite_read_eq (by simp [h]) (State.memWrite_wf hm a v) b w

/-! ## The stack and the 16-bit store -/

theorem word_sub_sub (v : Word) : v - 1#16 - 1#16 = v - 2#16 := by bv_omega

theorem word_add_add (v : Word) : v + 1#16 + 1#16 = v + 2#16 := by bv_omega

/-- PUSH's two writes, and SP (R160). -/
theorem State.pushWord_eq_memWrite (s : State) (v : Word) :
    s.pushWord v = ((s.memWrite (s.sp - 1) (hi v)).memWrite (s.sp - 2) (lo v)).setSp (s.sp - 2) := by
  have e : s.sp - 1 - 1 = s.sp - 2 := word_sub_sub s.sp
  rw [State.pushWord, State.pushByte, State.pushByte_sp, State.pushByte, State.memWrite_setSp, State.memWrite_setSp,
    State.memWrite_setSp, e]
  rfl

/-- The contents after a push: those of the two writes. -/
theorem State.pushWord_mem (s : State) (v : Word) :
    (s.pushWord v).mem = ((s.memWrite (s.sp - 1) (hi v)).memWrite (s.sp - 2) (lo v)).mem := by
  rw [State.pushWord_eq_memWrite]
  rfl

/-- Everything PUSH's two writes do (R160). -/
theorem State.pushWord_eq (s : State) (v : Word) :
    s.pushWord v = { s with
      sp := s.sp - 2
      mem := (s.pushWord v).mem
      trace := s.trace ++ [.write (s.sp - 1) (hi v), .write (s.sp - 2) (lo v)] } := by
  rw [State.pushWord_mem, State.pushWord_eq_memWrite, State.memWrite_eq, State.memWrite_eq]
  simp [State.setSp]

/-- The frame of a push. -/
theorem State.pushWord_read_ne (s : State) (v : Word) {a : Word} (h1 : a ≠ s.sp - 1) (h2 : a ≠ s.sp - 2) :
    (s.pushWord v).mem.read a.toNat = s.mem.read a.toNat := by
  rw [State.pushWord_mem, State.memWrite_read_ne _ _ h2, State.memWrite_read_ne _ _ h1]

theorem State.pushWord_read {s : State} (h : s.space = .flatRam) (hm : s.mem.wf) (v : Word) :
    (s.pushWord v).mem.read (s.sp - 1).toNat = hi v ∧ (s.pushWord v).mem.read (s.sp - 2).toNat = lo v := by
  rw [State.pushWord_mem]
  exact State.memWrite_memWrite_read h hm (word_sub_ne s.sp) _ _

theorem State.pushWord_mem_external {s : State} {k : Nat} (h : s.space = .external k) (v : Word) :
    (s.pushWord v).mem = s.mem := by
  rw [State.pushWord_mem, State.memWrite_mem_external (k := k) (by simp [h]), State.memWrite_mem_external h]

theorem State.pushWord_wf {s : State} (hm : s.mem.wf) (v : Word) : (s.pushWord v).mem.wf := by
  rw [State.pushWord_mem]
  exact State.memWrite_wf (State.memWrite_wf hm _ _) _ _

/-- The two bytes POP reads (R160): the second answer comes after the first transaction. -/
theorem State.popWord_fst (s : State) :
    s.popWord.1 = cat ((s.log (.read s.sp)).answer (s.sp + 1)) (s.answer s.sp) := rfl

/-- Everything POP's two reads do (R160). -/
theorem State.popWord_snd (s : State) :
    s.popWord.2 = { s with sp := s.sp + 2, trace := s.trace ++ [.read s.sp, .read (s.sp + 1)] } := by
  simp [State.popWord, State.popByte, State.log, State.setSp, word_add_add]

theorem State.popWord_fst_flatRam {s : State} (h : s.space = .flatRam) :
    s.popWord.1 = cat (s.mem.read (s.sp + 1).toNat) (s.mem.read s.sp.toNat) := by
  rw [State.popWord_fst, State.answer_flatRam h, State.answer_flatRam (s := s.log _) h]
  rfl

/-- Everything the 16-bit store does (R111). -/
theorem State.storeWord_eq (s : State) (a v : Word) :
    s.storeWord a v = { s with
      mem := (s.storeWord a v).mem
      trace := s.trace ++ [.write a (lo v), .write (a + 1) (hi v)] } := by
  rw [State.storeWord, State.memWrite_eq, State.memWrite_eq]
  simp

theorem State.storeWord_read_ne (s : State) (v : Word) {a b : Word} (h1 : b ≠ a) (h2 : b ≠ a + 1) :
    (s.storeWord a v).mem.read b.toNat = s.mem.read b.toNat := by
  rw [State.storeWord, State.memWrite_read_ne _ _ h2, State.memWrite_read_ne _ _ h1]

theorem State.storeWord_read {s : State} (h : s.space = .flatRam) (hm : s.mem.wf) (a v : Word) :
    (s.storeWord a v).mem.read a.toNat = lo v ∧ (s.storeWord a v).mem.read (a + 1).toNat = hi v :=
  State.memWrite_memWrite_read h hm (word_ne_succ a).symm _ _

theorem State.storeWord_mem_external {s : State} {k : Nat} (h : s.space = .external k) (a v : Word) :
    (s.storeWord a v).mem = s.mem := by
  rw [State.storeWord, State.memWrite_mem_external (k := k) (by simp [h]), State.memWrite_mem_external h]

theorem State.storeWord_wf {s : State} (hm : s.mem.wf) (a v : Word) : (s.storeWord a v).mem.wf :=
  State.memWrite_wf (State.memWrite_wf hm _ _) _ _

/-- Both immediate fetches at once (R108). -/
theorem State.fetchOperand_twice (s : State) :
    s.fetchOperand.fetchOperand =
      { s with pc := s.pc + 2, trace := s.trace ++ [.read (s.pc + 1), .read (s.pc + 2)] } := by
  simp [State.fetchOperand, State.fetchNext, State.setPc, State.log, word_add_add]

/-! ## Flags -/

theorem State.setFlag_low_zero (s : State) (x : Flag) (v : Bool) : (s.setFlag x v).f &&& 0x0F = 0 := by
  simp [State.setFlag]

/-- R25: writing one flag changes that flag alone. -/
theorem State.flag_setFlag (s : State) (x y : Flag) (v : Bool) :
    (s.setFlag x v).flag y = if y = x then v else s.flag y := by
  cases x <;> cases y <;> cases v <;> simp [State.flag, State.setFlag, State.setF, Flag.bit, Flag.mask]

/-- Z and N of SP + e8 are 0, H and C those of the low-byte addition (R136, R138). -/
theorem State.setAddFlags_f (s : State) (v : Word) (x : Byte) :
    (s.setAddFlags v x).f = (if halfCarryLow v x then 0x20 else 0) ||| (if carryLow v x then 0x10 else 0) := by
  have key : ∀ (f : Byte) (b c : Bool),
      ((((((if b then f ||| 0x20 else f &&& ~~~0x20) &&& 0xF0) |> fun g => (if c then g ||| 0x10 else g &&& ~~~0x10) &&& 0xF0)
        |> fun g => (g &&& ~~~0x80) &&& 0xF0) |> fun g => (g &&& ~~~0x40) &&& 0xF0) : Byte) =
      (if b then 0x20 else 0) ||| (if c then 0x10 else 0) := by decide
  exact key s.f (halfCarryLow v x) (carryLow v x)

theorem State.setAddFlags_eq (s : State) (v : Word) (x : Byte) :
    s.setAddFlags v x = { s with f := (s.setAddFlags v x).f } := rfl

end Sys2Proof.Machine
end

