-- ==== Sys2Proof/Laws/PerInstr.lean ====
section
/-! SUPPORT. Statements for all instructions, one lemma per constructor: every instruction is well formed (family WellFormed), and
decoding its encoding gives it back (family RoundTrip). -/

namespace Sys2Proof.Laws.WellFormed

/-- The operand is one the format admits (R90). -/
def Statement (i : Instr) : Prop := i.wellFormed = true

theorem word_ok (v : Word) : Format.opImm16.operandOk (some (v.toNat : Int)) = true := by
  have := v.isLt
  simp only [Format.operandOk, Bool.and_eq_true, decide_eq_true_eq]
  omega

theorem byte_ok (v : Byte) : Format.opE8.operandOk (some v.toInt) = true := by
  have h1 := BitVec.le_toInt v
  have h2 := BitVec.toInt_lt (x := v)
  simp only [Format.operandOk, Bool.and_eq_true, decide_eq_true_eq]
  omega

theorem ldBcD16 (d16 : Word) : Statement (.ldBcD16 d16) := word_ok d16
theorem ldDeD16 (d16 : Word) : Statement (.ldDeD16 d16) := word_ok d16
theorem ldHlD16 (d16 : Word) : Statement (.ldHlD16 d16) := word_ok d16
theorem ldSpD16 (d16 : Word) : Statement (.ldSpD16 d16) := word_ok d16
theorem ldSpHl : Statement .ldSpHl := rfl
theorem ldHlSpE8 (e8 : Byte) : Statement (.ldHlSpE8 e8) := byte_ok e8
theorem ldA16Sp (a16 : Word) : Statement (.ldA16Sp a16) := word_ok a16
theorem pushBc : Statement .pushBc := rfl
theorem pushDe : Statement .pushDe := rfl
theorem pushHl : Statement .pushHl := rfl
theorem pushAf : Statement .pushAf := rfl
theorem popBc : Statement .popBc := rfl
theorem popDe : Statement .popDe := rfl
theorem popHl : Statement .popHl := rfl
theorem popAf : Statement .popAf := rfl

end Sys2Proof.Laws.WellFormed

namespace Sys2Proof.Laws.RoundTrip

/-- Decoding the encoding gives the instruction back and leaves what stands after it (R80, R85). -/
def Statement (i : Instr) : Prop := ∀ rest : List Byte, decode (encode i ++ rest) = .ok (i, rest)

/-- Three formats, three shapes of encoding: the opcode byte alone, with a byte, or with a 16-bit immediate. -/
theorem of_op {i : Instr} {b0 : Byte} (he : encode i = [b0]) (hf : i.format = .op) (hp : b0 ≠ prefixByte)
    (hi : ∀ b1 b2, instrOf b0 b1 b2 = some i) : Statement i := fun rest => by
  rw [he, List.singleton_append, decode_row hp (hi _ _), hf]
  rfl

theorem of_imm16 {i : Instr} {b0 : Byte} {v : Word} (he : encode i = [b0, Machine.lo v, Machine.hi v])
    (hf : i.format = .opImm16) (hp : b0 ≠ prefixByte) (hrow : ∀ b1 b2, Machine.cat b2 b1 = v → instrOf b0 b1 b2 = some i) :
    Statement i := fun rest => by
  have hlong : ¬ (Machine.lo v :: Machine.hi v :: rest).length < 2 := by simp
  rw [he]
  refine (decode_row (rest := Machine.lo v :: Machine.hi v :: rest) hp
    (hrow (Machine.lo v) (Machine.hi v) (Machine.cat_hi_lo v))).trans ?_
  rw [hf]
  exact if_neg hlong

theorem ldBcD16 (d16 : Word) : Statement (.ldBcD16 d16) := of_imm16 rfl rfl (by decide) (fun _ _ h => h ▸ rfl)
theorem ldDeD16 (d16 : Word) : Statement (.ldDeD16 d16) := of_imm16 rfl rfl (by decide) (fun _ _ h => h ▸ rfl)
theorem ldHlD16 (d16 : Word) : Statement (.ldHlD16 d16) := of_imm16 rfl rfl (by decide) (fun _ _ h => h ▸ rfl)
theorem ldSpD16 (d16 : Word) : Statement (.ldSpD16 d16) := of_imm16 rfl rfl (by decide) (fun _ _ h => h ▸ rfl)
theorem ldSpHl : Statement .ldSpHl := of_op rfl rfl (by decide) (fun _ _ => rfl)
theorem ldHlSpE8 (e8 : Byte) : Statement (.ldHlSpE8 e8) := fun rest => by
  refine (decode_row (b0 := 0xF8) (rest := e8 :: rest) (i := .ldHlSpE8 e8) (by decide) rfl).trans ?_
  simp [Instr.format, Format.operandBytes]
theorem ldA16Sp (a16 : Word) : Statement (.ldA16Sp a16) := of_imm16 rfl rfl (by decide) (fun _ _ h => h ▸ rfl)
theorem pushBc : Statement .pushBc := of_op rfl rfl (by decide) (fun _ _ => rfl)
theorem pushDe : Statement .pushDe := of_op rfl rfl (by decide) (fun _ _ => rfl)
theorem pushHl : Statement .pushHl := of_op rfl rfl (by decide) (fun _ _ => rfl)
theorem pushAf : Statement .pushAf := of_op rfl rfl (by decide) (fun _ _ => rfl)
theorem popBc : Statement .popBc := of_op rfl rfl (by decide) (fun _ _ => rfl)
theorem popDe : Statement .popDe := of_op rfl rfl (by decide) (fun _ _ => rfl)
theorem popHl : Statement .popHl := of_op rfl rfl (by decide) (fun _ _ => rfl)
theorem popAf : Statement .popAf := of_op rfl rfl (by decide) (fun _ _ => rfl)

end Sys2Proof.Laws.RoundTrip
end

