-- ==== Sys2Proof/Laws/Step.lean ====
section
/-! SUPPORT. What a fetch, an execute and a step can do, each said once: the provers cite these and unfold none of the three. -/

namespace Sys2Proof.Machine

/-! ## The shared meanings -/

theorem loadImm16_eq (rr : Pair) (d16 : Word) (s : State) :
    loadImm16 rr d16 s = .next (State.setPair { s with
      pc := s.pc + 2, trace := s.trace ++ [.read (s.pc + 1), .read (s.pc + 2)] } rr d16) := by
  rw [loadImm16, State.fetchOperand_twice]

theorem popPair_eq (qq : Pair) (s : State) :
    popPair qq s = .next (State.setPair { s with
      sp := s.sp + 2, trace := s.trace ++ [.read s.sp, .read (s.sp + 1)] } qq
        (cat ((s.memRead s.sp).2.answer (s.sp + 1)) (s.answer s.sp))) := by
  rw [popPair, State.popWord_snd]
  rfl

/-! ## Fetching -/

theorem State.codeBytes_fst (s : State) : (codeBytes s).1 = s.answer s.pc := rfl

/-- What a fetch reads is what the AddressSpace answers; starting a step changes none of it. -/
theorem State.answer_beginStep (s : State) (a : Word) : s.beginStep.answer a = s.answer a :=
  State.answer_congr rfl rfl (State.history_beginStep s) a

theorem State.answer_log_beginStep (s : State) (x : Transaction) (a : Word) :
    (s.beginStep.log x).answer a = (s.log x).answer a := by
  apply State.answer_congr <;> simp

theorem codeBytes_beginStep (s : State) : codeBytes s.beginStep = codeBytes s := by
  have h0 := State.answer_beginStep s s.pc
  have h1 := State.answer_log_beginStep s (.read s.pc) (s.pc + 1)
  have h2 : (s.beginStep.log (.read s.pc)).fetchOperand.answer (s.pc + 1 + 1) =
      (s.log (.read s.pc)).fetchOperand.answer (s.pc + 1 + 1) := by
    apply State.answer_congr <;> simp
  exact Prod.ext h0 (Prod.ext h1 h2)

/-- With FlatRAM the code bytes are the three bytes of memory at PC. -/
theorem codeBytes_flatRam {s : State} (h : s.space = .flatRam) :
    codeBytes s = (s.mem.read s.pc.toNat, s.mem.read (s.pc + 1).toNat, s.mem.read (s.pc + 2).toNat) := by
  have e : s.pc + 1 + 1 = s.pc + 2 := word_add_add s.pc
  have h1 : (s.log (.read s.pc)).answer (s.pc + 1) = s.mem.read (s.pc + 1).toNat :=
    State.answer_flatRam (s := s.log _) h _
  have h2 : (s.log (.read s.pc)).fetchOperand.answer (s.pc + 1 + 1) = s.mem.read (s.pc + 2).toNat := by
    rw [e]
    exact State.answer_flatRam (s := (s.log _).fetchOperand) h _
  exact Prod.ext (State.answer_flatRam h _) (Prod.ext h1 h2)

/-- Everything a fetch can do. -/
theorem fetch_cases (s : State) :
    (∃ i, fetch s = .instr i (s.log (.read s.pc)) ∧ s.answer s.pc ≠ prefixByte ∧
      instrOf (codeBytes s).1 (codeBytes s).2.1 (codeBytes s).2.2 = some i) ∨
    (fetch s = .unsupported (s.answer s.pc) false (s.log (.read s.pc)) ∧ s.answer s.pc ≠ prefixByte ∧
      formatOf (s.answer s.pc) = none) ∨
    (fetch s = .unsupported ((s.log (.read s.pc)).answer (s.pc + 1)) true
        ((s.log (.read s.pc)).log (.read (s.pc + 1))) ∧ s.answer s.pc = prefixByte) := by
  unfold fetch
  dsimp only
  rw [State.codeBytes_fst]
  by_cases hp : s.answer s.pc = prefixByte
  · rw [if_pos hp]
    exact .inr (.inr ⟨rfl, hp⟩)
  · rw [if_neg hp]
    split
    · next h => exact .inr (.inl ⟨rfl, hp, (instrOf_none_iff _ _ _).1 h⟩)
    · next i h => exact .inl ⟨i, rfl, hp, h⟩

/-! ## A property that every operation keeps -/

/-- The operations an execute is made of keep `P`. -/
structure Kept (P : State → Prop) : Prop where
  log : ∀ s a, P s → P (s.log (.read a))
  memWrite : ∀ s a v, P s → P (s.memWrite a v)
  setPc : ∀ s v, P s → P (s.setPc v)
  setSp : ∀ s v, P s → P (s.setSp v)
  setPair : ∀ s rr v, P s → P (s.setPair rr v)
  setAddFlags : ∀ s v x, P s → P (s.setAddFlags v x)

theorem Kept.fetchOperand {P : State → Prop} (k : Kept P) {s : State} (h : P s) : P s.fetchOperand :=
  k.log _ _ (k.setPc _ _ h)

theorem Kept.pushWord {P : State → Prop} (k : Kept P) {s : State} (h : P s) (v : Word) : P (s.pushWord v) :=
  k.memWrite _ _ _ (k.setSp _ _ (k.memWrite _ _ _ (k.setSp _ _ h)))

theorem Kept.popWord {P : State → Prop} (k : Kept P) {s : State} (h : P s) : P s.popWord.2 :=
  k.setSp _ _ (k.log _ _ (k.setSp _ _ (k.log _ _ h)))

/-- Every execute completes, and keeps what every operation keeps. -/
theorem exec_kept {P : State → Prop} (k : Kept P) (i : Instr) {s : State} (h : P s) :
    ∃ t, exec i s = .next t ∧ P t := by
  have h2 := k.fetchOperand (k.fetchOperand h)
  cases i with
  | ldBcD16 d => exact ⟨_, rfl, k.setPair _ .bc d h2⟩
  | ldDeD16 d => exact ⟨_, rfl, k.setPair _ .de d h2⟩
  | ldHlD16 d => exact ⟨_, rfl, k.setPair _ .hl d h2⟩
  | ldSpD16 d => exact ⟨_, rfl, k.setPair _ .sp d h2⟩
  | ldSpHl => exact ⟨_, rfl, k.setPair _ .sp _ h⟩
  | ldHlSpE8 e => exact ⟨_, rfl, k.setPair _ .hl _ (k.setAddFlags _ _ _ (k.fetchOperand h))⟩
  | ldA16Sp a => exact ⟨_, rfl, k.memWrite _ _ _ (k.memWrite _ _ _ h2)⟩
  | pushBc => exact ⟨_, rfl, k.pushWord h _⟩
  | pushDe => exact ⟨_, rfl, k.pushWord h _⟩
  | pushHl => exact ⟨_, rfl, k.pushWord h _⟩
  | pushAf => exact ⟨_, rfl, k.pushWord h _⟩
  | popBc => exact ⟨_, rfl, k.setPair _ .bc _ (k.popWord h)⟩
  | popDe => exact ⟨_, rfl, k.setPair _ .de _ (k.popWord h)⟩
  | popHl => exact ⟨_, rfl, k.setPair _ .hl _ (k.popWord h)⟩
  | popAf => exact ⟨_, rfl, k.setPair _ .af _ (k.popWord h)⟩

/-! ## Stepping -/

/-- A faulted state has no step (R40). -/
theorem step_of_fault {s : State} {x : FaultInfo} (h : s.fault = some x) : step s = .fault (.unsupportedOpcode x) := by
  simp [step, h]

/-- Everything a step can do in a state without a fault: run one instruction, or raise UnsupportedOpcode. -/
theorem step_cases {s : State} (h : s.fault = none) :
    (∃ i t, fetch s.beginStep = .instr i (s.beginStep.log (.read s.pc)) ∧ s.answer s.pc ≠ prefixByte ∧
      instrOf (codeBytes s).1 (codeBytes s).2.1 (codeBytes s).2.2 = some i ∧
      exec i (s.beginStep.log (.read s.pc)) = .next t ∧
      step s = .next { t with pc := t.pc + 1, cycles := some (cyclesOf i) }) ∨
    (s.answer s.pc ≠ prefixByte ∧ formatOf (s.answer s.pc) = none ∧
      step s = .next ((s.beginStep.log (.read s.pc)).raiseUnsupported s.pc (s.answer s.pc) false)) ∨
    (s.answer s.pc = prefixByte ∧
      step s = .next (((s.beginStep.log (.read s.pc)).log (.read (s.pc + 1))).raiseUnsupported s.pc
        ((s.log (.read s.pc)).answer (s.pc + 1)) true)) := by
  have hc := fetch_cases s.beginStep
  rw [codeBytes_beginStep, State.beginStep_pc, State.answer_beginStep] at hc
  rw [State.answer_log_beginStep] at hc
  rcases hc with ⟨i, hf, hp, hi⟩ | ⟨hf, hp, hn⟩ | ⟨hf, hp⟩
  · obtain ⟨t, ht, -⟩ := exec_kept (P := fun _ => True) ⟨by simp, by simp, by simp, by simp, by simp, by simp⟩ i
      (s := s.beginStep.log (.read s.pc)) trivial
    exact .inl ⟨i, t, hf, hp, hi, ht, by simp [step, h, hf, ht, completeStep]⟩
  · exact .inr (.inl ⟨hp, hn, by simp [step, h, hf]⟩)
  · exact .inr (.inr ⟨hp, by simp [step, h, hf]⟩)

/-- A step keeps what every operation, the start of a step, its labels and the fault record keep. -/
theorem step_kept {P : State → Prop} (k : Kept P) (hb : ∀ s, P s → P s.beginStep)
    (hc : ∀ s n, P s → P { s with cycles := n })
    (hr : ∀ s p b x, P s → (x = false ∧ b ≠ prefixByte ∧ formatOf b = none ∨ x = true) → P (s.raiseUnsupported p b x))
    {s t : State} (h : P s) (hst : step s = .next t) : P t := by
  have hf : s.fault = none := by
    cases e : s.fault with
    | none => rfl
    | some x => rw [step_of_fault e] at hst; cases hst
  have h0 := k.log _ s.pc (hb _ h)
  rcases step_cases hf with ⟨i, u, -, -, -, he, hs⟩ | ⟨hp, hn, hs⟩ | ⟨-, hs⟩
  · rw [hs] at hst
    cases hst
    obtain ⟨u', he', hu⟩ := exec_kept k i h0
    rw [he] at he'
    cases he'
    exact hc _ (some (cyclesOf i)) (k.setPc _ (u.pc + 1) hu)
  · rw [hs] at hst
    cases hst
    exact hr _ _ _ _ h0 (.inl ⟨rfl, hp, hn⟩)
  · rw [hs] at hst
    cases hst
    exact hr _ _ _ _ (k.log _ _ h0) (.inr rfl)

end Sys2Proof.Machine
end

