-- ==== Sys2Proof/Laws/Run.lean ====
section
/-! SUPPORT. Runs: the induction over a host's interactions, packaged once, one more step of a run, and the parts of the invariant
that every operation keeps. -/

namespace Sys2Proof.Machine

/-- What every host interaction keeps holds at the end of a run of them. -/
theorem hostRun_keeps {P : State → Prop} (hP : ∀ act s t, P s → hostAct act s = .next t → P t) {acts : List HostAction}
    {s t : State} (h : P s) (hr : hostRun acts s = .next t) : P t := by
  induction acts generalizing s with
  | nil => cases hr; exact h
  | cons x xs ih =>
    simp only [hostRun] at hr
    split at hr
    · next u hu => exact ih (hP x s u h hu) hr
    · cases hr
    · cases hr

/-- A run of `n + 1` steps takes one step and then runs `n`. -/
theorem run_succ (n : Nat) (s : State) :
    Host.Core.run Sys2Proof.core (n + 1) s =
      (match step s with
      | .next t => Host.Core.run Sys2Proof.core n t
      | .fault r => .fault r
      | .refused r => .refused r) := by
  have e := Host.Core.run.eq_2 Sys2Proof.core s n
  cases h : step s with
  | next t =>
    have hs : Host.Core.step Sys2Proof.core s = .next t := h
    simpa only [hs] using e
  | fault r =>
    have hs : Host.Core.step Sys2Proof.core s = .fault r := h
    simpa only [hs] using e
  | refused r =>
    have hs : Host.Core.step Sys2Proof.core s = .refused r := h
    simpa only [hs] using e

theorem kept_lowNibble : Kept (fun s => s.f &&& 0x0F = 0) where
  log _ _ h := h
  memWrite _ _ _ h := by simpa using h
  setPc _ _ h := h
  setSp _ _ h := h
  setPair _ rr _ h := by cases rr <;> first | exact mask_low_zero _ | exact h
  setAddFlags _ _ _ _ := mask_low_zero _

theorem kept_memory : Kept (fun s => s.mem.wf) where
  log _ _ h := h
  memWrite _ a v h := State.memWrite_wf h a v
  setPc _ _ h := h
  setSp _ _ h := h
  setPair _ _ _ h := by simpa using h
  setAddFlags _ _ _ h := h

/-- No operation touches the fault record. -/
theorem kept_fault (Q : Option FaultInfo → Prop) : Kept (fun s => Q s.fault) where
  log _ _ h := h
  memWrite _ _ _ h := by simpa using h
  setPc _ _ h := h
  setSp _ _ h := h
  setPair _ _ _ h := by simpa using h
  setAddFlags _ _ _ h := h

/-- The decoder's table and the executor's hold the same opcode bytes. -/
theorem lookup_isSome : ∀ b : Byte, (lookup b false).isSome = (formatOf b).isSome := by decide

end Sys2Proof.Machine
end

