-- ==== Sys2Proof/Tests/Slice0.lean ====
section
/-! SUPPORT. The model's own tests. Expected values are the spec's: worked examples S1 to S10 and vectors V1 to V86 of
95_test_vectors.md, named in each comment, and encodings written out from rule R85. After them, a witness for the hypotheses
of every statement that has some. -/

namespace Sys2Proof.Tests

open Sys2Proof Sys2Proof.Machine

/-! ## Helpers -/

/-- Reset with PC at `pc` and some bytes placed there. -/
def codeAt (pc : Word) (bytes : List Byte) : State := (State.reset.setPc pc).withCode bytes

/-- A byte of memory set without a transaction. -/
def poke (s : State) (a : Word) (v : Byte) : State := { s with mem := s.mem.write a.toNat v }

/-- What to look at in the next state, if there is one. -/
def seen {α : Type} (r : Host.Outcome State Fault Refusal) (f : State → α) : Option α :=
  match r with
  | .next t => some (f t)
  | .fault _ => none
  | .refused _ => none

/-! ## Operands an assembler may not write (R90) -/

theorem test_operand_not_wanted : Format.op.operandOk (some 0) = false := by decide
theorem test_operand_missing_e8 : Format.opE8.operandOk none = false := by decide
theorem test_operand_e8_low : Format.opE8.operandOk (some (-129)) = false := by decide
theorem test_operand_e8_high : Format.opE8.operandOk (some 128) = false := by decide
theorem test_operand_missing_imm16 : Format.opImm16.operandOk none = false := by decide
theorem test_operand_imm16_low : Format.opImm16.operandOk (some (-1)) = false := by decide
theorem test_operand_imm16_high : Format.opImm16.operandOk (some 65536) = false := by decide
theorem test_operands_at_the_edges :
    Format.opE8.operandOk (some (-128)) = true ∧ Format.opE8.operandOk (some 127) = true ∧
    Format.opImm16.operandOk (some 0) = true ∧ Format.opImm16.operandOk (some 65535) = true := by decide

/-- R90: `LD HL,SP-5` is e8 = -5, byte 0xFB. -/
theorem test_assemble_minus_five : assemble 0xF8 (some (-5)) = some [0xF8, 0xFB] := by decide

/-- R90: a d16 is emitted low byte first. -/
theorem test_assemble_low_first : assemble 0x01 (some 0xA099) = some [0x01, 0x99, 0xA0] := by decide

/-! ## Decoding: every row's word, written out from R85 -/

theorem test_decode_ldBcD16 : decode [0b00000001, 0x99, 0xA0] = .ok (.ldBcD16 0xA099, []) := by rfl
theorem test_decode_ldDeD16 : decode [0b00010001, 0x34, 0x12] = .ok (.ldDeD16 0x1234, []) := by rfl
theorem test_decode_ldHlD16 : decode [0b00100001, 0xFF, 0x00] = .ok (.ldHlD16 0x00FF, []) := by rfl
theorem test_decode_ldSpD16 : decode [0b00110001, 0xFE, 0xFF] = .ok (.ldSpD16 0xFFFE, []) := by rfl
theorem test_decode_ldSpHl : decode [0b11111001, 0x76] = .ok (.ldSpHl, [0x76]) := by rfl
theorem test_decode_ldHlSpE8 : decode [0b11111000, 0x80, 0x76] = .ok (.ldHlSpE8 0x80, [0x76]) := by rfl
theorem test_decode_ldA16Sp : decode [0b00001000, 0x11, 0xFC] = .ok (.ldA16Sp 0xFC11, []) := by rfl
theorem test_decode_pushBc : decode [0b11000101] = .ok (.pushBc, []) := by rfl
theorem test_decode_pushDe : decode [0b11010101] = .ok (.pushDe, []) := by rfl
theorem test_decode_pushHl : decode [0b11100101] = .ok (.pushHl, []) := by rfl
theorem test_decode_pushAf : decode [0b11110101] = .ok (.pushAf, []) := by rfl
theorem test_decode_popBc : decode [0b11000001] = .ok (.popBc, []) := by rfl
theorem test_decode_popDe : decode [0b11010001] = .ok (.popDe, []) := by rfl
theorem test_decode_popHl : decode [0b11100001] = .ok (.popHl, []) := by rfl
theorem test_decode_popAf : decode [0b11110001] = .ok (.popAf, []) := by rfl

/-- R89: SM83's NOP, HALT and ADD SP,e8 and the illegal 0xD3 have no entry. -/
theorem test_decode_unadmitted :
    decode [0x00] = .error (.unsupported 0x00 false) ∧ decode [0x76] = .error (.unsupported 0x76 false) ∧
    decode [0xE8, 0x01] = .error (.unsupported 0xE8 false) ∧ decode [0xD3] = .error (.unsupported 0xD3 false) := by
  refine ⟨?_, ?_, ?_, ?_⟩ <;> rfl

/-- V82: 0x11 after the prefix is not LD DE,d16. -/
theorem test_decode_prefixed : decode [0xCB, 0x11, 0x22, 0x33] = .error (.unsupported 0x11 true) := by rfl

theorem test_decode_truncated :
    decode [0x01, 0x99] = .error (.truncated 0x01) ∧ decode [0xF8] = .error (.truncated 0xF8) ∧
    decode [0xCB] = .error (.truncated 0xCB) ∧ decode [] = .error .noBytes := by
  refine ⟨?_, ?_, ?_, ?_⟩ <;> rfl

/-- The table's numbering: byte 0 in bits 7 to 0. -/
theorem test_table_word :
    decodeTableWord 24 0xA09901 = some (.ldBcD16 0xA099) ∧ decodeTableWord 8 0xF5 = some .pushAf ∧
    decodeTableWord 16 0xFBF8 = some (.ldHlSpE8 0xFB) ∧ decodeTableWord 8 0x00 = none := by decide

/-! ## Registers and flags -/

/-- V1 to V6, S10. -/
theorem test_flag_byte_masked :
    (State.reset.setReg8 .f 0xFF).f = 0xF0 ∧ (State.reset.setReg8 .f 0x0F).f = 0x00 ∧
    (State.reset.setPair .af 0xABCD).getPair .af = 0xABC0 ∧ (State.reset.setPair .af 0xFFFF).getPair .af = 0xFFF0 ∧
    (State.reset.setFlag .h true).f = 0x20 := by decide

theorem test_pair_halves :
    (State.reset.setPair .hl 0x8001).h = 0x80 ∧ (State.reset.setPair .hl 0x8001).l = 0x01 ∧
    ((State.reset.setReg8 .b 0x12).setReg8 .c 0x34).getPair .bc = 0x1234 := by decide

/-! ## Execute and step -/

/-- S3, step level. -/
theorem test_ldBcD16_step :
    seen (step (codeAt 0x2000 [0x01, 0x99, 0xA0])) (fun t => (t.b, t.c, t.pc, t.cycles, t.trace)) =
      some (0xA0, 0x99, 0x2003, some 3, [.read 0x2000, .read 0x2001, .read 0x2002]) := by decide

/-- V13: the immediate wraps past 0xFFFF. -/
theorem test_ldBcD16_wraps :
    seen (step (codeAt 0xFFFE [0x01, 0x78, 0x56])) (fun t => (t.getPair .bc, t.pc, t.trace)) =
      some (0x5678, 0x0001, [.read 0xFFFE, .read 0xFFFF, .read 0x0000]) := by decide

/-- V10. -/
theorem test_ldDeD16_step :
    seen (step (codeAt 0x4000 [0x11, 0x34, 0x12])) (fun t => (t.d, t.e, t.pc)) = some (0x12, 0x34, 0x4003) := by decide

/-- V15: no flag is written, Z included. -/
theorem test_ldHlD16_keeps_flags :
    seen (exec (.ldHlD16 0x0000) { State.reset with f := 0xB0 }) (fun t => (t.getPair .hl, t.f)) =
      some (0x0000, 0xB0) := by decide

/-- V16. -/
theorem test_ldSpD16_step :
    seen (step ((codeAt 0x3000 [0x31, 0x00, 0x80]).setSp 0x1234)) (fun t => t.sp) = some 0x8000 := by decide

/-- S4, execute level: no transaction. -/
theorem test_ldSpHl_exec :
    seen (exec .ldSpHl { State.reset with pc := 0x2000, sp := 0x2001, h := 0x11, l := 0x11 })
      (fun t => (t.sp, t.getPair .hl, t.pc, t.trace)) = some (0x1111, 0x1111, 0x2000, []) := by decide

/-- V22: the step's advance of PC wraps. -/
theorem test_ldSpHl_step_wraps :
    seen (step (codeAt 0xFFFF [0xF9])) (fun t => (t.pc, t.cycles)) = some (0x0000, some 2) := by decide

/-- S5a, V31, V34, V36: carries come from the low byte, and Z stays 0 at a zero result. -/
theorem test_ldHlSpE8_flags :
    seen (exec (.ldHlSpE8 0x01) (State.reset.setSp 0x00FF)) (fun t => (t.getPair .hl, t.f)) = some (0x0100, 0x30) ∧
    seen (exec (.ldHlSpE8 0xFF) (State.reset.setSp 0x0001)) (fun t => (t.getPair .hl, t.f)) = some (0x0000, 0x30) ∧
    seen (exec (.ldHlSpE8 0x80) (State.reset.setSp 0x12F0)) (fun t => (t.getPair .hl, t.f)) = some (0x1270, 0x10) ∧
    seen (exec (.ldHlSpE8 0x7F) (State.reset.setSp 0xFFF8)) (fun t => (t.getPair .hl, t.f)) = some (0x0077, 0x30) := by
  decide

/-- V38, V30: Z and N are cleared from 1; a borrow sets no carry. -/
theorem test_ldHlSpE8_clears :
    seen (exec (.ldHlSpE8 0x01) { State.reset with sp := 0x001E, f := 0xC0 }) (fun t => (t.getPair .hl, t.f, t.sp)) =
      some (0x001F, 0x00, 0x001E) ∧
    seen (exec (.ldHlSpE8 0xFF) (State.reset.setSp 0x0000)) (fun t => (t.getPair .hl, t.f)) = some (0xFFFF, 0x00) := by
  decide

/-- S6, step level. -/
theorem test_ldA16Sp_step :
    seen (step ((codeAt 0x0000 [0x08, 0x11, 0xFC]).setSp 0xAB1F))
        (fun t => (t.mem.read 0xFC11, t.mem.read 0xFC12, t.cycles, t.trace)) =
      some (0x1F, 0xAB, some 5,
        [.read 0x0000, .read 0x0001, .read 0x0002, .write 0xFC11 0x1F, .write 0xFC12 0xAB]) := by decide

/-- V40, V41: the second address wraps; an instruction that overwrites its own operand has already fetched it. -/
theorem test_ldA16Sp_corners :
    seen (step ((codeAt 0x0300 [0x08, 0xFF, 0xFF]).setSp 0x1234)) (fun t => (t.mem.read 0xFFFF, t.mem.read 0x0000)) =
      some (0x34, 0x12) ∧
    seen (step ((codeAt 0xC000 [0x08, 0x01, 0xC0]).setSp 0xBEEF)) (fun t => (t.mem.read 0xC001, t.mem.read 0xC002, t.pc)) =
      some (0xEF, 0xBE, 0xC003) := by decide

/-- V50. -/
theorem test_pushBc :
    seen (step { codeAt 0x0100 [0xC5] with b := 0xBE, c := 0xEF, sp := 0xFFFE }) (fun t => (t.sp, t.trace, t.cycles)) =
      some (0xFFFC, [.read 0x0100, .write 0xFFFD 0xBE, .write 0xFFFC 0xEF], some 4) := by decide

/-- V51: SP wraps below zero. -/
theorem test_pushDe_wraps :
    seen (exec .pushDe { State.reset with d := 0x12, e := 0x34 }) (fun t => (t.mem.read 0xFFFF, t.mem.read 0xFFFE, t.sp)) =
      some (0x12, 0x34, 0xFFFE) := by decide

/-- V52: the wrap falls between the two writes. -/
theorem test_pushHl_wraps :
    seen (exec .pushHl { State.reset with h := 0x80, l := 0x01, sp := 0x0001 })
      (fun t => (t.mem.read 0x0000, t.mem.read 0xFFFF, t.sp)) = some (0x80, 0x01, 0xFFFF) := by decide

/-- S7 as 90_conflicts.md C3 corrects it. -/
theorem test_pushAf_masked :
    seen (exec .pushAf ((State.reset.setPair .af 0x1234).setSp 0x221F))
      (fun t => (t.mem.read 0x221E, t.mem.read 0x221D, t.sp)) = some (0x12, 0x30, 0x221D) := by decide

/-- V60, with V65's flags. -/
theorem test_popBc :
    seen (exec .popBc { poke (poke State.reset 0xC000 0xCD) 0xC001 0xAB with sp := 0xC000, f := 0xA0 })
      (fun t => (t.getPair .bc, t.sp, t.f, t.trace)) =
      some (0xABCD, 0xC002, 0xA0, [.read 0xC000, .read 0xC001]) := by decide

/-- V63: the wrap falls between the two reads. -/
theorem test_popDe_wraps :
    seen (exec .popDe { poke (poke State.reset 0xFFFF 0x78) 0x0000 0x56 with sp := 0xFFFF })
      (fun t => (t.getPair .de, t.sp)) = some (0x5678, 0x0001) := by decide

/-- V64. -/
theorem test_popHl :
    seen (exec .popHl { poke (poke State.reset 0xFFFE 0x00) 0xFFFF 0xC0 with sp := 0xFFFE })
      (fun t => (t.getPair .hl, t.sp)) = some (0xC000, 0x0000) := by decide

/-- S8 as 90_conflicts.md C4 corrects it, and V62: the low nibble of the popped byte is dropped. -/
theorem test_popAf_masked :
    seen (exec .popAf { poke (poke State.reset 0x221D 0x34) 0x221E 0x12 with sp := 0x221D })
      (fun t => (t.a, t.f, t.sp)) = some (0x12, 0x30, 0x221F) ∧
    seen (exec .popAf { poke State.reset 0xC000 0x0F with sp := 0xC000, f := 0xF0 }) (fun t => (t.a, t.f)) =
      some (0x00, 0x00) := by decide

/-! ## UnsupportedOpcode -/

/-- V80. -/
theorem test_unsupported_primary :
    seen (step (codeAt 0x0150 [0x00])) (fun t => (t.fault, t.pc, t.trace, t.cycles)) =
      some (some ⟨.unsupportedOpcode, 0x0150, 0x00, false⟩, 0x0150, [.read 0x0150], none) := by decide

/-- V82: the byte after a prefix at 0xFFFF is read at 0x0000. -/
theorem test_unsupported_prefixed_wraps :
    seen (step (codeAt 0xFFFF [0xCB, 0x11])) (fun t => (t.fault, t.pc, t.trace)) =
      some (some ⟨.unsupportedOpcode, 0xFFFF, 0x11, true⟩, 0xFFFF, [.read 0xFFFF, .read 0x0000]) := by decide

/-- A state whose fault record is set. -/
def faulted : State := State.reset.raiseUnsupported 0x0150 0x00 false

/-- V86. -/
theorem test_faulted_has_no_step : step faulted = .fault (.unsupportedOpcode ⟨.unsupportedOpcode, 0x0150, 0x00, false⟩) := by
  rfl

/-! ## The words of the opcode table run as the first instruction after reset -/

theorem test_first_step_after_reset :
    seen (step (State.reset.withFetchWord 24 0xA09901)) (fun t => (t.getPair .bc, t.pc)) = some (0xA099, 0x0003) ∧
    seen (step (State.reset.withFetchWord 8 0xF1)) (fun t => (t.a, t.f, t.sp)) = some (0x00, 0xF0, 0x0002) := by decide

/-! ## Witnesses: a state and operands that meet a statement's hypotheses together -/

/-- A state on FlatRAM with `LD (a16),SP` at PC, whose store hits the next opcode. -/
def storing : State := (codeAt 0x0100 [0x08, 0x03, 0x01]).setSp 0xC5F9

/-- A state on another AddressSpace. -/
def onOther : State := { State.reset with space := .external 7, sp := 0x1234 }

theorem witness_EightBitRegistersReadBack : Reg8.a ≠ Reg8.f ∧ Reg8.f ≠ Reg8.a := by decide
theorem witness_PairRoundTrip : Pair.bc ≠ Pair.af := by decide
theorem witness_ResetMeetsInvariant : LaunchState.zero.mem.wf := by decide
theorem witness_StepKeepsInvariant : storing.wf ∧ ∃ t, step storing = .next t := ⟨by decide, _, rfl⟩
/-- For FlagByteLowNibbleZero, ReachedStatesMeetInvariant and FlatRamReadsLastWrite: a host write of an opcode and a step. -/
theorem witness_reached :
    LaunchState.zero.space = .flatRam ∧ LaunchState.zero.mem.wf ∧ ∃ t, ReachedFrom LaunchState.zero t ∧ t.sp = 0xFFFE :=
  ⟨rfl, by decide, _, ⟨[.writeByte 0x0000 0xC5, .runStep], rfl⟩, by decide⟩
/-- For WriteTransactionChangesOneByte, StoredStackPointerFetchedBack, PopAfterPushRestores and every POP statement. -/
theorem witness_flatRam :
    storing.space = .flatRam ∧ storing.mem.wf ∧ storing.f &&& 0x0F = 0 ∧ (0x0001 : Word) ≠ 0x0000 := by decide
theorem witness_ExternalAddressSpaceAnswersFromHistory :
    onOther.space = .external 7 ∧ (onOther.setSp 0).space = .external 7 ∧ (onOther.setSp 0).history = onOther.history := by
  decide
theorem witness_NextFetchSeesStoredBytes :
    storing.space = .flatRam ∧ storing.mem.wf ∧ storing.fault = none ∧
      codeBytes storing = (0x08, lo 0x0103, hi 0x0103) := by decide
/-- The three cases of the next opcode's address: it is stored to by the first write, by the second, or by neither. -/
theorem witness_NextFetchSeesStoredBytes_cases :
    codeBytes ((codeAt 0x0100 [0x08, 0x02, 0x01]).setSp 0xC5F9) = (0x08, lo 0x0102, hi 0x0102) ∧
    codeBytes ((codeAt 0x0100 [0x08, 0x00, 0xC0]).setSp 0xC5F9) = (0x08, lo 0xC000, hi 0xC000) := by decide
theorem witness_EncodeOfDecode : decode [0x08, 0x11, 0xFC, 0x00] = .ok (.ldA16Sp 0xFC11, [0x00]) := by rfl
theorem witness_UnadmittedBytesRejectedByName : (0x00 : Byte) ≠ 0xCB ∧ lookup 0x00 false = none := by decide
theorem witness_AssembleEmitsEncoding :
    (-128 ≤ (-128 : Int) ∧ (-128 : Int) ≤ 127) ∧ (-128 ≤ (127 : Int) ∧ (127 : Int) ≤ 127) ∧
    ((-129 : Int) < -128 ∨ 127 < (-129 : Int)) ∧ ((128 : Int) < -128 ∨ 127 < (128 : Int)) ∧
    ((-1 : Int) < 0 ∨ 0xFFFF < (-1 : Int)) ∧ ((65536 : Int) < 0 ∨ 0xFFFF < (65536 : Int)) ∧
    (formatOf 0xF1 = some .op ∧ Format.op.operandOk (some 0) = false) ∧
    (formatOf 0x31 = some .opImm16 ∧ Format.opImm16.operandOk (some 65536) = false) ∧
    (formatOf 0xF8 = some .opE8 ∧ Format.opE8.operandOk none = false) ∧ formatOf 0x00 = none := by decide
theorem witness_StepRunsDecodedInstruction :
    storing.fault = none ∧ codeBytes storing = (0x08, 0x03, 0x01) ∧
      decode [0x08, 0x03, 0x01] = .ok (.ldA16Sp 0x0103, []) ∧ storing.space = .flatRam ∧
      ∃ t, exec (.ldA16Sp 0x0103) (storing.beginStep.memRead storing.pc).2 = .next t :=
  ⟨rfl, by decide, rfl, rfl, _, rfl⟩
/-- For StepOutcomes, StepAdvancesPcByLength, StepTraceIsTheTable and StepEmitsDeclaredCycles. -/
theorem witness_fetch : storing.fault = none ∧ ∃ s1, fetch storing.beginStep = .instr (.ldA16Sp 0x0103) s1 := ⟨rfl, _, rfl⟩
theorem witness_OnlyNamedInstructionsWrite : ∃ t, exec .ldSpHl storing = .next t := ⟨_, rfl⟩
theorem witness_LabelsAreNotObserved : storing.space = .flatRam ∧ ∃ t, step storing = .next t := ⟨rfl, _, rfl⟩
theorem witness_UnsupportedOpcodeRecorded :
    (codeAt 0x0150 [0x76]).fault = none ∧ (codeAt 0x0150 [0x76]).answer 0x0150 = 0x76 ∧ (0x76 : Byte) ≠ 0xCB ∧
    lookup 0x76 false = none ∧ (codeAt 0x0150 [0xCB, 0x11]).fault = none ∧
    (codeAt 0x0150 [0xCB, 0x11]).answer 0x0150 = 0xCB := by decide
theorem witness_FaultExactlyWhenNoEntry :
    storing.fault = none ∧ (∃ t, step storing = .next t ∧ t.fault = none) ∧
      ∃ t, step State.reset = .next t ∧ t.fault ≠ none := ⟨rfl, ⟨_, rfl, rfl⟩, _, rfl, by decide⟩
theorem witness_FaultRecordIsFinal :
    faulted.fault = some ⟨.unsupportedOpcode, 0x0150, 0x00, false⟩ ∧ ∃ t, hostAct (.writePc 0) faulted = .next t :=
  ⟨rfl, _, rfl⟩
theorem witness_NormalRunIsNormalThroughout : ∃ t, EndsNormally storing 1 t := ⟨_, rfl, rfl⟩
theorem witness_HostInteractionsBetweenSteps :
    State.reset.space = .flatRam ∧ State.reset.mem.wf ∧ onOther.space = .external 7 ∧ Reg8.a ≠ Reg8.f ∧
      (0x0000 : Word) ≠ 0xFFFF := by decide
theorem witness_OperationsFoldInOrder : ∃ y, runOps [.fetchLo, .fetchHi, .writePair .bc] ⟨storing, -3, []⟩ = .ok y := ⟨_, rfl⟩
theorem witness_InitialAccumulatorNeverObserved :
    (0 : Int) ≤ 0xFFFF ∧ ∃ y, MicroOp.run .pushHi ⟨storing, 0xFFFF, []⟩ = .ok y := ⟨by decide, _, rfl⟩
theorem witness_ConditionalOperationElides :
    State.reset.flag .z = false ∧ State.reset.flag .z ≠ true ∧ ([(3, -1)] : Context).lookup 3 = some (-1) ∧
      ([(3, -1)] : Context).lookup 4 = none := by decide
/-- For the six statements of an instruction with an immediate: its table entry exists. -/
theorem witness_immediate_entries :
    ∀ b ∈ ([0x01, 0x11, 0x21, 0x31, 0xF8, 0x08] : List Byte), (lookup b false).isSome = true := by decide
/-- For LdA16SpStores and the four PUSH statements: both kinds of AddressSpace, and an address that is not stored to. -/
theorem witness_stores :
    storing.space = .flatRam ∧ storing.mem.wf ∧ onOther.space = .external 7 ∧ (0x4000 : Word) ≠ 0x0103 ∧
    (0x4000 : Word) ≠ 0x0103 + 1 ∧ (0x4000 : Word) ≠ storing.sp - 1 ∧ (0x4000 : Word) ≠ storing.sp - 2 := by decide
theorem witness_ProgramCounterAndStackWrap :
    (codeAt 0xFFFF [0xF9]).pc = 0xFFFF ∧ (codeAt 0xFFFF [0xF9]).fault = none ∧
      (∃ s1, fetch (codeAt 0xFFFF [0xF9]).beginStep = .instr .ldSpHl s1) ∧
      State.reset.sp = 0x0000 ∧ (State.reset.setSp 0xFFFF).sp = 0xFFFF := ⟨rfl, rfl, ⟨_, rfl⟩, rfl, rfl⟩
theorem witness_LowByteFlagPolicy : lo 0xAB1F = lo (State.reset.setSp 0x001F).sp := by decide

end Sys2Proof.Tests
end

section
/-! PROOFS. The statements about registers, pairs, the flag byte, PC and SP (10_state.md). First the rules they need that the
laws above do not give yet, then one theorem for each statement. -/

namespace Sys2Proof.Machine

/-! ## Registers and pairs: reading after writing -/

/-- One 8-bit write, read back at every slot: F is stored through its mask, and no other slot changes (R22, R23). -/
theorem State.getReg8_setReg8 (s : State) (q r : Reg8) (v : Byte) :
    (s.setReg8 r v).getReg8 q = if q = r then (if r = .f then v &&& 0xF0 else v) else s.getReg8 q := by
  cases r <;> cases q <;> rfl

theorem State.getReg8_setReg8_same (s : State) {r : Reg8} (hr : r ≠ .f) (v : Byte) : (s.setReg8 r v).getReg8 r = v := by
  rw [State.getReg8_setReg8, if_pos rfl, if_neg hr]

theorem State.getReg8_setReg8_f (s : State) (v : Byte) : (s.setReg8 .f v).getReg8 .f = v &&& 0xF0 := by
  rw [State.getReg8_setReg8, if_pos rfl, if_pos rfl]

theorem State.getReg8_setReg8_of_ne (s : State) {q r : Reg8} (hq : q ≠ r) (v : Byte) :
    (s.setReg8 r v).getReg8 q = s.getReg8 q := by
  rw [State.getReg8_setReg8, if_neg hq]

theorem State.getPair_setPair_same (s : State) {rr : Pair} (hr : rr ≠ .af) (v : Word) :
    (s.setPair rr v).getPair rr = v := by
  cases rr with
  | af => exact absurd rfl hr
  | sp => rfl
  | _ => exact cat_hi_lo v

/-- AF reads back through the mask of F (R29). -/
theorem State.getPair_setPair_af (s : State) (v : Word) : (s.setPair .af v).getPair .af = v &&& 0xFFF0 :=
  cat_mask v

/-- No pair but SP itself holds a part of SP (R30). -/
theorem State.setPair_sp_of_ne (s : State) {rr : Pair} (hr : rr ≠ .sp) (v : Word) : (s.setPair rr v).sp = s.sp := by
  cases rr with
  | sp => exact absurd rfl hr
  | _ => rfl

/-! ## What the host keeps -/

/-- The operations that steps and host interactions are made of keep `P`: those of an execute, and the start of a step, its
cycle label, raising UnsupportedOpcode, and the host's writes of a register and of a flag (R190). -/
structure HostKept (P : State → Prop) : Prop extends Kept P where
  beginStep : ∀ s, P s → P s.beginStep
  cycles : ∀ s n, P s → P { s with cycles := n }
  raise : ∀ s p b x, P s → (x = false ∧ b ≠ prefixByte ∧ formatOf b = none ∨ x = true) → P (s.raiseUnsupported p b x)
  setReg8 : ∀ s r v, P s → P (s.setReg8 r v)
  setFlag : ∀ s x v, P s → P (s.setFlag x v)

/-- What every operation keeps, every host interaction keeps. -/
theorem HostKept.hostAct_keeps {P : State → Prop} (k : HostKept P) (act : HostAction) (s t : State) (h : P s)
    (ht : hostAct act s = .next t) : P t := by
  cases act with
  | runStep => exact step_kept k.toKept k.beginStep k.cycles k.raise h ht
  | readState => cases ht; exact h
  | readByte a => cases ht; exact k.log _ a (k.beginStep s h)
  | writeReg8 r v => cases ht; exact k.setReg8 s r v h
  | writePair rr v => cases ht; exact k.setPair s rr v h
  | writePc v => cases ht; exact k.setPc s v h
  | writeFlag x v => cases ht; exact k.setFlag s x v h
  | writeByte a v => cases ht; exact k.memWrite _ a v (k.beginStep s h)
  | stop => cases ht; exact h
  | readInstruction b x => cases ht; exact h
  | overlapStep => cases ht

/-- What holds at a launch and is kept by every operation holds in every state reached from that launch. -/
theorem HostKept.reached {P : State → Prop} (k : HostKept P) {x : LaunchState} {t : State} (h : P (State.launch x))
    (hr : ReachedFrom x t) : P t := by
  obtain ⟨acts, hacts⟩ := hr
  exact hostRun_keeps k.hostAct_keeps h hacts

theorem hostKept_lowNibble : HostKept (fun s => s.f &&& 0x0F = 0) where
  toKept := kept_lowNibble
  beginStep _ h := h
  cycles _ _ h := h
  raise _ _ _ _ h _ := h
  setReg8 _ r _ h := by
    cases r with
    | f => exact mask_low_zero _
    | _ => exact h
  setFlag s x v _ := s.setFlag_low_zero x v

/-- F[3:0] is zero at every launch (R23, R200). -/
theorem State.launch_low_zero (x : LaunchState) : (State.launch x).f &&& 0x0F = 0 := mask_low_zero x.f

/-! ## Where PC and SP stand after an execute -/

theorem loadImm16_pc (rr : Pair) (d16 : Word) (s : State) : ∃ t, loadImm16 rr d16 s = .next t ∧ t.pc = s.pc + 2 :=
  ⟨_, loadImm16_eq rr d16 s, State.setPair_pc _ rr d16⟩

/-- Everything PUSH does but to the contents of memory (R160). -/
theorem pushPair_eq (qq : Pair) (s : State) :
    pushPair qq s = .next { s with
      sp := s.sp - 2
      mem := (s.pushWord (s.getPair qq)).mem
      trace := s.trace ++ [.write (s.sp - 1) (hi (s.getPair qq)), .write (s.sp - 2) (lo (s.getPair qq))] } :=
  congrArg Host.Outcome.next (State.pushWord_eq s (s.getPair qq))

theorem pushPair_pc (qq : Pair) (s : State) : ∃ t, pushPair qq s = .next t ∧ t.pc = s.pc :=
  ⟨_, pushPair_eq qq s, rfl⟩

theorem pushPair_sp (qq : Pair) (s : State) : ∃ t, pushPair qq s = .next t ∧ t.sp = s.sp - 2 :=
  ⟨_, pushPair_eq qq s, rfl⟩

theorem popPair_pc (qq : Pair) (s : State) : ∃ t, popPair qq s = .next t ∧ t.pc = s.pc :=
  ⟨_, popPair_eq qq s, State.setPair_pc _ qq _⟩

theorem popPair_sp {qq : Pair} (hq : qq ≠ .sp) (s : State) : ∃ t, popPair qq s = .next t ∧ t.sp = s.sp + 2 :=
  ⟨_, popPair_eq qq s, State.setPair_sp_of_ne _ hq _⟩

/-- R31: an execute moves PC by the operand's bytes, to the instruction's last byte. -/
theorem exec_pc (i : Instr) (s : State) :
    ∃ t, exec i s = .next t ∧ t.pc = s.pc + BitVec.ofNat 16 i.format.operandBytes := by
  have stays : s.pc = s.pc + BitVec.ofNat 16 Format.op.operandBytes := (BitVec.add_zero s.pc).symm
  cases i with
  | ldBcD16 d16 => exact loadImm16_pc .bc d16 s
  | ldDeD16 d16 => exact loadImm16_pc .de d16 s
  | ldHlD16 d16 => exact loadImm16_pc .hl d16 s
  | ldSpD16 d16 => exact loadImm16_pc .sp d16 s
  | ldSpHl => exact ⟨_, rfl, stays⟩
  | ldHlSpE8 e8 => exact ⟨_, rfl, rfl⟩
  | ldA16Sp a16 =>
    refine ⟨_, rfl, ?_⟩
    rw [State.storeWord_eq, State.fetchOperand_twice]
    rfl
  | pushBc => exact stays ▸ pushPair_pc .bc s
  | pushDe => exact stays ▸ pushPair_pc .de s
  | pushHl => exact stays ▸ pushPair_pc .hl s
  | pushAf => exact stays ▸ pushPair_pc .af s
  | popBc => exact stays ▸ popPair_pc .bc s
  | popDe => exact stays ▸ popPair_pc .de s
  | popHl => exact stays ▸ popPair_pc .hl s
  | popAf => exact stays ▸ popPair_pc .af s

/-- R31, R33: an execute leaves PC one byte short of the next instruction, modulo 2^16. -/
theorem exec_pc_wraps (i : Instr) (s : State) :
    ∃ t, exec i s = .next t ∧ (t.pc.toNat + 1) % 65536 = (s.pc.toNat + (encode i).length) % 65536 := by
  obtain ⟨t, ht, hpc⟩ := exec_pc i s
  refine ⟨t, ht, ?_⟩
  rw [hpc, encode_length, BitVec.toNat_add, BitVec.toNat_ofNat]
  omega

theorem exec_push_sp {i : Instr} (hi : i ∈ ([.pushBc, .pushDe, .pushHl, .pushAf] : List Instr)) (s : State) :
    ∃ t, exec i s = .next t ∧ t.sp = s.sp - 2 := by
  simp only [List.mem_cons, List.not_mem_nil, or_false] at hi
  rcases hi with rfl | rfl | rfl | rfl
  · exact pushPair_sp .bc s
  · exact pushPair_sp .de s
  · exact pushPair_sp .hl s
  · exact pushPair_sp .af s

theorem exec_pop_sp {i : Instr} (hi : i ∈ ([.popBc, .popDe, .popHl, .popAf] : List Instr)) (s : State) :
    ∃ t, exec i s = .next t ∧ t.sp = s.sp + 2 := by
  simp only [List.mem_cons, List.not_mem_nil, or_false] at hi
  rcases hi with rfl | rfl | rfl | rfl
  · exact popPair_sp (qq := .bc) (by decide) s
  · exact popPair_sp (qq := .de) (by decide) s
  · exact popPair_sp (qq := .hl) (by decide) s
  · exact popPair_sp (qq := .af) (by decide) s

/-- A fetch that finds an instruction has made the opcode's read and nothing else (R112). -/
theorem fetch_instr_state {s s1 : State} {i : Instr} (h : fetch s = .instr i s1) : s1 = s.log (.read s.pc) := by
  rcases fetch_cases s with ⟨j, hj, -, -⟩ | ⟨hu, -, -⟩ | ⟨hu, -⟩
  · cases hj.symm.trans h
    rfl
  · cases hu.symm.trans h
  · cases hu.symm.trans h

/-- A step runs the instruction its fetch finds, and then moves PC once more (R112). -/
theorem step_of_fetch {s s1 t : State} {i : Instr} (hs : s.fault = none) (hf : fetch s.beginStep = .instr i s1)
    (ht : exec i s1 = .next t) : step s = .next { t with pc := t.pc + 1, cycles := some (cyclesOf i) } := by
  simp only [step, hs, hf, ht, completeStep]

/-- R32: a step of `LD SP,HL`, which is one byte long, moves PC by one. -/
theorem step_ldSpHl_pc {s s1 : State} (hs : s.fault = none) (hf : fetch s.beginStep = .instr .ldSpHl s1) :
    ∃ t, step s = .next t ∧ t.pc = s.pc + 1 := by
  obtain rfl := fetch_instr_state hf
  exact ⟨_, step_of_fetch hs hf rfl, rfl⟩

/-! ## The statements -/

/-- Settles O2: every operation stores F through its mask or leaves it alone, so its low nibble stays zero along every run. -/
theorem flagByteLowNibbleZero : Obligations.FlagByteLowNibbleZero := by
  unfold Obligations.FlagByteLowNibbleZero
  refine ⟨State.getReg8_setReg8_f, fun _ v => State.setF_f _ (lo v), fun s x v => ⟨State.setF_f s _, s.setFlag_low_zero x v⟩,
    State.launch_low_zero, fun x _ hr => ?_⟩
  exact hostKept_lowNibble.reached (State.launch_low_zero x) hr

/-- Settles O1, from the two rules for an 8-bit read after a write and the frame of `setReg8`. -/
theorem eightBitRegistersReadBack : Obligations.EightBitRegistersReadBack := by
  unfold Obligations.EightBitRegistersReadBack
  intro s r v
  exact ⟨fun hr => s.getReg8_setReg8_same hr v, fun _ hq => s.getReg8_setReg8_of_ne hq v,
    s.setReg8_pc r v, s.setReg8_sp r v, s.setReg8_mem r v⟩

/-- Settles O4: a pair is the `cat` of its registers, and the two bytes it is written from are `hi v` and `lo v`. -/
theorem pairViewsHighAndLow : Obligations.PairViewsHighAndLow := by
  unfold Obligations.PairViewsHighAndLow
  intro s v
  refine ⟨cat_toNat s.a s.f, cat_toNat s.b s.c, cat_toNat s.d s.e, cat_toNat s.h s.l, hi v, lo v, hi_toNat v, lo_toNat v, ?_⟩
  exact ⟨s.setPair_bc v, s.setPair_de v, s.setPair_hl v, s.setPair_af v⟩

/-- Settles O5, from the rules for a pair read after a write. -/
theorem pairRoundTrip : Obligations.PairRoundTrip := by
  unfold Obligations.PairRoundTrip
  intro s v
  exact ⟨fun _ hr => s.getPair_setPair_same hr v, s.setPc_pc v, s.getPair_setPair_af v⟩

/-- Settles O50: PC and SP move by word addition, which wraps; the four edge cases are the same equations at 0xFFFF and 0x0000. -/
theorem programCounterAndStackWrap : Obligations.ProgramCounterAndStackWrap := by
  unfold Obligations.ProgramCounterAndStackWrap
  intro s
  refine ⟨fun i => exec_pc_wraps i s, fun i hi => ?_, fun i hi => ?_, fun hpc d16 => ?_, fun hpc hs s1 hf => ?_, fun hsp => ?_,
    fun hsp => ?_⟩
  · obtain ⟨t, ht, hsp⟩ := exec_push_sp hi s
    exact ⟨t, ht, by rw [hsp]; bv_omega⟩
  · obtain ⟨t, ht, hsp⟩ := exec_pop_sp hi s
    exact ⟨t, ht, by rw [hsp]; bv_omega⟩
  · refine (loadImm16_eq .bc d16 s).trans ?_
    rw [hpc]
    rfl
  · obtain ⟨t, ht, hnext⟩ := step_ldSpHl_pc hs hf
    exact ⟨t, ht, by rw [hnext, hpc]; rfl⟩
  · refine ⟨_, pushPair_eq .bc s, ?_⟩
    simp [hsp, State.getPair]
  · refine ⟨_, popPair_eq .de s, ?_⟩
    simp [hsp]

end Sys2Proof.Machine
end

section
/-! PROOFS. The statements about the executor and the outcomes of a driver step (40_execution.md). -/

namespace Sys2Proof.Machine

/-! ## Operation lists (R102) -/

theorem runOps_nil (x : ExecState) : runOps [] x = .ok x := rfl

theorem runOps_cons (op : MicroOp) (ops : List MicroOp) (x : ExecState) :
    runOps (op :: ops) x = op.run x >>= runOps ops := by
  rw [runOps]
  cases op.run x <;> rfl

theorem runOps_singleton (op : MicroOp) : runOps [op] = op.run := by
  funext x
  calc runOps [op] x = op.run x >>= pure := runOps_cons op [] x
    _ = op.run x := bind_pure _

/-- Running one list and then another is one fold over both: the second starts from what the first left. -/
theorem runOps_append (ops ops' : List MicroOp) (x : ExecState) :
    runOps (ops ++ ops') x = runOps ops x >>= runOps ops' := by
  induction ops generalizing x with
  | nil => rfl
  | cons op ops ih =>
    calc runOps (op :: (ops ++ ops')) x
      _ = op.run x >>= runOps (ops ++ ops') := runOps_cons op _ x
      _ = op.run x >>= fun y => runOps ops y >>= runOps ops' := congrArg (op.run x >>= ·) (funext ih)
      _ = (op.run x >>= runOps ops) >>= runOps ops' := (bind_assoc _ _ _).symm
      _ = runOps (op :: ops) x >>= runOps ops' := by rw [runOps_cons]

/-- R102, R202: the Context and the accumulator that the Operations leave are discarded. -/
theorem Instruction.execute_of_runOps {x : Instruction} {acc0 : Int} {s : State} {y : ExecState}
    (h : runOps x.ops ⟨s, acc0, []⟩ = .ok y) : x.execute acc0 s = .next y.state := by
  rw [Instruction.execute, h]

/-! ## The two outcomes of a step (R113) -/

theorem Kept.and {P Q : State → Prop} (hP : Kept P) (hQ : Kept Q) : Kept (fun s => P s ∧ Q s) where
  log s a h := ⟨hP.log s a h.1, hQ.log s a h.2⟩
  memWrite s a v h := ⟨hP.memWrite s a v h.1, hQ.memWrite s a v h.2⟩
  setPc s v h := ⟨hP.setPc s v h.1, hQ.setPc s v h.2⟩
  setSp s v h := ⟨hP.setSp s v h.1, hQ.setSp s v h.2⟩
  setPair s rr v h := ⟨hP.setPair s rr v h.1, hQ.setPair s rr v h.2⟩
  setAddFlags s v x h := ⟨hP.setAddFlags s v x h.1, hQ.setAddFlags s v x h.2⟩

/-- Transactions join the Trace at its end, so what it begins with stays (R60, R69). -/
theorem kept_trace_prefix (p : List Transaction) : Kept (fun s => p <+: s.trace) where
  log _ _ h := h.trans (List.prefix_append _ _)
  memWrite s a v h := by
    rw [State.memWrite_trace]
    exact h.trans (List.prefix_append _ _)
  setPc _ _ h := h
  setSp _ _ h := h
  setPair _ _ _ h := by simpa using h
  setAddFlags _ _ _ h := h

/-- The execute of a fetched instruction completes without a fault, and its Trace begins with the opcode fetch (R113). -/
theorem exec_of_fetch {s s1 : State} {i : Instr} (hs : s.fault = none) (hf : fetch s.beginStep = .instr i s1) :
    ∃ t, exec i s1 = .next t ∧ t.fault = none ∧ [.read s.pc] <+: t.trace := by
  obtain rfl := fetch_instr_state hf
  exact exec_kept ((kept_fault (· = none)).and (kept_trace_prefix [.read s.pc])) i ⟨hs, List.prefix_rfl⟩

/-- A lookup that fails has made reads and nothing else (R112). -/
theorem fetch_unsupported_state {s s1 : State} {b : Byte} {x : Bool} (h : fetch s = .unsupported b x s1) :
    s1 = { s with trace := s1.trace } := by
  rcases fetch_cases s with ⟨_, hi, -, -⟩ | ⟨hu, -, -⟩ | ⟨hu, -⟩
  · cases hi.symm.trans h
  · cases hu.symm.trans h
    rfl
  · cases hu.symm.trans h
    rfl

/-- A step whose lookup fails raises UnsupportedOpcode at the opcode's address (R112, R181). -/
theorem step_of_fetch_unsupported {s s1 : State} {b : Byte} {x : Bool} (hs : s.fault = none)
    (hf : fetch s.beginStep = .unsupported b x s1) : step s = .next (s1.raiseUnsupported s.pc b x) := by
  simp only [step, hs, hf]

/-! ## The statements -/

/-- Settles O24, by the two outcomes of the fetch: an execute always completes, and raising writes the fault record alone. -/
theorem stepOutcomes : Obligations.StepOutcomes := by
  unfold Obligations.StepOutcomes
  intro s hs
  cases hf : fetch s.beginStep with
  | instr i s1 =>
    obtain ⟨t, ht, hfault, rest, htrace⟩ := exec_of_fetch hs hf
    exact ⟨_, step_of_fetch hs hf ht, .inl ⟨i, s1, rfl, hfault, rfl, rest, htrace.symm⟩⟩
  | unsupported b x s1 =>
    refine ⟨_, step_of_fetch_unsupported hs hf, .inr ⟨b, x, s1, rfl, ?_⟩⟩
    rw [fetch_unsupported_state hf]
    rfl

/-- Settles O36: appending one Operation is the case of `runOps_append` with a second list of one. -/
theorem operationsFoldInOrder : Obligations.OperationsFoldInOrder := by
  unfold Obligations.OperationsFoldInOrder
  refine ⟨runOps_nil, fun ops op x => ?_, fun _ _ _ _ h => Instruction.execute_of_runOps h⟩
  rw [runOps_append, runOps_singleton]
  cases runOps ops x <;> rfl

end Sys2Proof.Machine
end

section
/-! PROOFS. The statements about the 16-bit loads and SP arithmetic (41_load16.md). -/

namespace Sys2Proof.Machine

/-! ## The sum SP + e8 as numbers (R138) -/

theorem lowNibble_toNat (b : Byte) : (lowNibble b).toNat = b.toNat % 16 := by
  simp [lowNibble, BitVec.extractLsb'_toNat]

theorem halfCarryLow_iff (v : Word) (e : Byte) :
    halfCarryLow v e = true ↔ 0x10 ≤ v.toNat % 16 + e.toNat % 16 := by
  have low : v.toNat % 256 % 16 = v.toNat % 16 := Nat.mod_mod_of_dvd _ (by decide)
  rw [halfCarryLow, decide_eq_true_iff, lowNibble_toNat, lowNibble_toNat, lo_toNat, low]

theorem carryLow_iff (v : Word) (e : Byte) : carryLow v e = true ↔ 0x100 ≤ v.toNat % 256 + e.toNat := by
  rw [carryLow, decide_eq_true_iff, lo_toNat]

theorem halfCarryLow_congr {v w : Word} (h : lo v = lo w) (e : Byte) : halfCarryLow v e = halfCarryLow w e := by
  rw [halfCarryLow, halfCarryLow, h]

theorem carryLow_congr {v w : Word} (h : lo v = lo w) (e : Byte) : carryLow v e = carryLow w e := by
  rw [carryLow, carryLow, h]

/-- R8: sign extension keeps the signed value, modulo 2^16. -/
theorem sext16_toNat (b : Byte) : ((sext16 b).toNat : Int) = b.toInt % 65536 := by
  rw [sext16, BitVec.signExtend, BitVec.toNat_ofInt]
  exact Int.toNat_of_nonneg (Int.emod_nonneg _ (by decide))

theorem addSigned_toNat (v : Word) (e : Byte) :
    ((addSigned v e).toNat : Int) = ((v.toNat : Int) + e.toInt) % 65536 := by
  have hsext := sext16_toNat e
  rw [addSigned, BitVec.toNat_add]
  omega

/-! ## The flags that SP + e8 leaves -/

theorem State.isH_setAddFlags (s : State) (v : Word) (e : Byte) : (s.setAddFlags v e).isH = halfCarryLow v e := by
  simp [State.isH, State.setAddFlags, State.flag_setFlag]

theorem State.isC_setAddFlags (s : State) (v : Word) (e : Byte) : (s.setAddFlags v e).isC = carryLow v e := by
  simp [State.isC, State.setAddFlags, State.flag_setFlag]

/-! ## The table entry of a load of an immediate -/

theorem accLo_accOfByte (b : Byte) : accLo (accOfByte b) = b := by
  rw [accLo, accOfByte, zext16_toNat, BitVec.ofInt_natCast, BitVec.ofNat_toNat, BitVec.setWidth_eq]

theorem accWord_accOfWord (v : Word) : accWord (accOfWord v) = v := by
  rw [accWord, accOfWord, BitVec.ofInt_natCast, BitVec.ofNat_toNat, BitVec.setWidth_eq]

/-- R114: LoadImm16(rr) makes both fetches, puts the two bytes together in the accumulator and writes the pair from it. -/
theorem runOps_loadImm16 (rr : Pair) (acc0 : Int) (s : State) (ctx : Context) :
    runOps [.fetchLo, .fetchHi, .writePair rr] ⟨s, acc0, ctx⟩ =
      .ok ⟨s.fetchOperand.fetchOperand.setPair rr (cat s.fetchNext.2.fetchNext.1 s.fetchNext.1),
        accOfWord (cat s.fetchNext.2.fetchNext.1 s.fetchNext.1), ctx⟩ := by
  simp only [runOps, MicroOp.run, accLo_accOfByte, accWord_accOfWord, State.fetchNext_snd]

/-- The table entry does what the instruction that carries its operand does, for the operand the entry fetches, whatever the
accumulator holds before. -/
theorem Instruction.execute_loadImm16 (rr : Pair) (identifier : String) (acc0 : Int) (s : State) :
    (Instruction.loadImm16 rr identifier).execute acc0 s =
      Machine.loadImm16 rr (cat s.fetchNext.2.fetchNext.1 s.fetchNext.1) s := by
  rw [Instruction.execute_of_runOps (runOps_loadImm16 rr acc0 s []), Machine.loadImm16]

theorem lookup_ldBcD16 : lookup 0x01 false = some (.loadImm16 .bc "LD BC,d16") := rfl

/-! ## The statements -/

/-- Settles O48: the carries read SP through `lo` alone, and HL gets the wrapped sum with the sign-extended byte. -/
theorem lowByteFlagPolicy : Obligations.LowByteFlagPolicy := by
  unfold Obligations.LowByteFlagPolicy
  intro e8 s
  refine ⟨halfCarryLow_iff s.sp e8, carryLow_iff s.sp e8, addSigned_toNat s.sp e8,
    fun v hv => ⟨halfCarryLow_congr hv e8, carryLow_congr hv e8⟩, _, rfl, ?_, ?_, ?_⟩
  · exact State.isH_setAddFlags s.fetchOperand s.sp e8
  · exact State.isC_setAddFlags s.fetchOperand s.sp e8
  · exact State.getPair_setPair_same _ (by decide) (addSigned s.sp e8)

/-- Settles O42, from the round trip of the encoding and the two readings of LoadImm16(BC), meaning and table entry. -/
theorem ldBcD16LoadsImmediate : Obligations.LdBcD16LoadsImmediate := by
  unfold Obligations.LdBcD16LoadsImmediate
  intro d16 s
  refine ⟨Laws.RoundTrip.ldBcD16 d16 [], lookup_ldBcD16, fun acc0 x hx => ?_, rfl, loadImm16_eq .bc d16 s⟩
  cases lookup_ldBcD16.symm.trans hx
  exact Instruction.execute_loadImm16 .bc "LD BC,d16" acc0 s

/-- Settles O46: the meaning writes SP from the pair HL and makes no transaction. -/
theorem ldSpHlCopies : Obligations.LdSpHlCopies := by
  unfold Obligations.LdSpHlCopies
  intro s
  have hsp : s.setPair .sp (s.getPair .hl) = { s with sp := cat s.h s.l } := s.setPair_sp_eq (cat s.h s.l)
  exact ⟨Laws.RoundTrip.ldSpHl [], rfl, rfl, congrArg Host.Outcome.next hsp⟩

end Sys2Proof.Machine
end

section
/-! PROOFS. The invariant of every reachable state, the values of a launch, and the AddressSpace (20_memory.md). -/

namespace Sys2Proof.Machine

/-! ## What every operation keeps -/

theorem HostKept.and {P Q : State → Prop} (hP : HostKept P) (hQ : HostKept Q) : HostKept (fun s => P s ∧ Q s) where
  toKept := hP.toKept.and hQ.toKept
  beginStep s h := ⟨hP.beginStep s h.1, hQ.beginStep s h.2⟩
  cycles s n h := ⟨hP.cycles s n h.1, hQ.cycles s n h.2⟩
  raise s p b x h hb := ⟨hP.raise s p b x h.1 hb, hQ.raise s p b x h.2 hb⟩
  setReg8 s r v h := ⟨hP.setReg8 s r v h.1, hQ.setReg8 s r v h.2⟩
  setFlag s x v h := ⟨hP.setFlag s x v h.1, hQ.setFlag s x v h.2⟩

theorem hostKept_memory : HostKept (fun s => s.mem.wf) where
  toKept := kept_memory
  beginStep _ h := h
  cycles _ _ h := h
  raise _ _ _ _ h _ := h
  setReg8 s r v h := (s.setReg8_mem r v).symm ▸ h
  setFlag _ _ _ h := h

/-- A byte has a format exactly where the executor's table has an entry. -/
theorem formatOf_eq_none_iff (b : Byte) : formatOf b = none ↔ lookup b false = none := by
  rw [← Option.isNone_iff_eq_none, ← Option.isNone_iff_eq_none, ← Option.not_isSome, ← Option.not_isSome, lookup_isSome]

/-- A fault record is written by raising alone, which names a byte with no entry (R181). -/
theorem hostKept_faultRecord : HostKept (fun s => ∀ x ∈ s.fault, x.wf) where
  toKept := kept_fault (fun o => ∀ x ∈ o, x.wf)
  beginStep _ h := h
  cycles _ _ h := h
  raise s p b x _ hb y hy := by
    cases hy
    rcases hb with ⟨rfl, hprefix, hformat⟩ | rfl
    · exact ⟨(formatOf_eq_none_iff b).1 hformat, fun _ => hprefix⟩
    · exact ⟨rfl, fun h => nomatch h⟩
  setReg8 s r v h := (s.setReg8_fault r v).symm ▸ h
  setFlag _ _ _ h := h

theorem hostKept_wf : HostKept State.wf := hostKept_lowNibble.and (hostKept_memory.and hostKept_faultRecord)

theorem State.launch_wf {x : LaunchState} (h : x.mem.wf) : (State.launch x).wf :=
  ⟨State.launch_low_zero x, h, fun _ hy => nomatch hy⟩

/-! ## FlatRAM and the history of transactions (R54) -/

@[simp] theorem lastWrite_read (a b : Word) (older : List Transaction) :
    lastWrite (.read b :: older) a = lastWrite older a := rfl

theorem lastWrite_write (a b : Word) (v : Byte) (older : List Transaction) :
    lastWrite (.write b v :: older) a = if b = a then some v else lastWrite older a := rfl

@[simp] theorem State.history_setPair (s : State) (rr : Pair) (v : Word) : (s.setPair rr v).history = s.history := by
  rw [State.history, State.setPair_trace, State.setPair_past, State.history]

@[simp] theorem State.history_setReg8 (s : State) (r : Reg8) (v : Byte) : (s.setReg8 r v).history = s.history := by
  rw [State.history, State.setReg8_trace, State.setReg8_past, State.history]

/-- FlatRAM is bound, and its contents are what the history of transactions makes of the launch image. -/
def RamIsHistory (image : Memory) (s : State) : Prop :=
  s.space = .flatRam ∧ s.mem.wf ∧
    ∀ a : Word, s.mem.read a.toNat = (lastWrite s.history a).getD (image.read a.toNat)

theorem RamIsHistory.answer {image : Memory} {s : State} (h : RamIsHistory image s) (a : Word) :
    s.answer a = (lastWrite s.history a).getD (image.read a.toNat) := by
  obtain ⟨hspace, -, hread⟩ := h
  rw [State.answer_flatRam hspace, hread]

theorem RamIsHistory.launch {x : LaunchState} (hs : x.space = .flatRam) (hm : x.mem.wf) :
    RamIsHistory x.mem (State.launch x) :=
  ⟨hs, hm, fun _ => rfl⟩

/-- What changes neither the AddressSpace, its contents nor the history of writes keeps the relation. -/
theorem RamIsHistory.congr {image : Memory} {s t : State} (h : RamIsHistory image s) (hspace : t.space = s.space)
    (hmem : t.mem = s.mem) (hhist : ∀ a, lastWrite t.history a = lastWrite s.history a) : RamIsHistory image t := by
  obtain ⟨hs, hwf, hread⟩ := h
  exact ⟨hspace.trans hs, hmem ▸ hwf, fun a => by rw [hmem, hhist, hread]⟩

theorem RamIsHistory.memWrite {image : Memory} {s : State} (h : RamIsHistory image s) (a : Word) (v : Byte) :
    RamIsHistory image (s.memWrite a v) := by
  obtain ⟨hs, hwf, hread⟩ := h
  refine ⟨(s.memWrite_space a v).trans hs, State.memWrite_wf hwf a v, fun b => ?_⟩
  rw [State.history_memWrite, lastWrite_write]
  by_cases hab : a = b
  · subst hab
    rw [if_pos rfl, State.memWrite_read_eq hs hwf]
    rfl
  · rw [if_neg hab, State.memWrite_read_ne s v (Ne.symm hab), hread]

theorem hostKept_ramIsHistory (image : Memory) : HostKept (RamIsHistory image) where
  log s a h := h.congr rfl rfl fun _ => by rw [State.history_log, lastWrite_read]
  memWrite _ a v h := h.memWrite a v
  setPc _ _ h := h
  setSp _ _ h := h
  setPair s rr v h := h.congr (s.setPair_space rr v) (s.setPair_mem rr v) fun _ => by rw [State.history_setPair]
  setAddFlags _ _ _ h := h
  beginStep s h := h.congr rfl rfl fun _ => by rw [State.history_beginStep]
  cycles _ _ h := h
  raise _ _ _ _ h _ := h
  setReg8 s r v h := h.congr (s.setReg8_space r v) (s.setReg8_mem r v) fun _ => by rw [State.history_setReg8]
  setFlag _ _ _ h := h

/-! ## The statements -/

/-- Settles O8: the invariant is a conjunction of three properties that every operation keeps. -/
theorem stepKeepsInvariant : Obligations.StepKeepsInvariant := by
  unfold Obligations.StepKeepsInvariant
  exact fun s t h hst => hostKept_wf.hostAct_keeps .runStep s t h hst

/-- Settles O7: reset is the launch with nothing in memory. -/
theorem resetMeetsInvariant : Obligations.ResetMeetsInvariant := by
  unfold Obligations.ResetMeetsInvariant
  exact ⟨State.launch_wf (x := LaunchState.zero) ⟨List.Pairwise.nil, nofun⟩, fun _ h => State.launch_wf h⟩

/-- Settles O9: the invariant holds at the launch and every host interaction keeps it. -/
theorem reachedStatesMeetInvariant : Obligations.ReachedStatesMeetInvariant := by
  unfold Obligations.ReachedStatesMeetInvariant
  exact fun _ _ hx hr => hostKept_wf.reached (State.launch_wf hx) hr

/-- Settles O10: that FlatRAM's contents are what the history makes of the image is kept by every operation. -/
theorem flatRamReadsLastWrite : Obligations.FlatRamReadsLastWrite := by
  unfold Obligations.FlatRamReadsLastWrite
  exact fun x _ hs hm hr a => ((hostKept_ramIsHistory x.mem).reached (RamIsHistory.launch hs hm) hr).answer a

/-- Settles O6: a launch copies every value it is given but F, which it masks. -/
theorem launchStateHoldsGivenValues : Obligations.LaunchStateHoldsGivenValues := by
  unfold Obligations.LaunchStateHoldsGivenValues
  exact fun _ => ⟨rfl, rfl, rfl, rfl, rfl, rfl, rfl, rfl, rfl, rfl, rfl, rfl, rfl⟩

/-- Settles O3, from the rule for a flag read after a write of a flag. -/
theorem flagPositionsAndSingleWrites : Obligations.FlagPositionsAndSingleWrites := by
  unfold Obligations.FlagPositionsAndSingleWrites
  exact fun s => ⟨rfl, rfl, rfl, rfl, fun x v => ⟨fun y => s.flag_setFlag x y v, rfl⟩⟩

/-- Settles O11, from the rules for a byte read after a write, on FlatRAM. -/
theorem writeTransactionChangesOneByte : Obligations.WriteTransactionChangesOneByte := by
  unfold Obligations.WriteTransactionChangesOneByte
  intro s a v hs hm
  have hs' : (s.memWrite a v).space = .flatRam := (s.memWrite_space a v).trans hs
  refine ⟨?_, fun b hb => ?_, State.memWrite_wf hm a v, s.memWrite_eq a v⟩
  · rw [State.answer_flatRam hs', State.memWrite_read_eq hs hm]
  · rw [State.answer_flatRam hs', State.answer_flatRam hs, State.memWrite_read_ne s v hb]

/-- Settles O12: what `State.answer` asks an external AddressSpace is its number, the history and the address. -/
theorem externalAddressSpaceAnswersFromHistory : Obligations.ExternalAddressSpaceAnswersFromHistory := by
  unfold Obligations.ExternalAddressSpaceAnswersFromHistory
  intro s k a v hs
  refine ⟨State.memWrite_external hs a v, rfl, s.history_log (.read a), fun t ht hist => ?_⟩
  rw [State.memRead_fst, State.memRead_fst, State.answer, State.answer, ht, hs, hist]

end Sys2Proof.Machine
end

section
/-! PROOFS. The statements about encoding, decoding, the opcode tables and the assembler (30_encoding.md). -/

namespace Sys2Proof

open Sys2Proof.Machine

/-! ## Decoding and encoding are inverse -/

/-- The operand's bytes that a row looks at are the first bytes of the tail. -/
theorem take_operand_bytes {n : Nat} (hn : n ≤ 2) {tail : List Byte} (h : n ≤ tail.length) :
    [tail.getD 0 0, tail.getD 1 0].take n = tail.take n := by
  match n, tail, hn, h with
  | 0, _, _, _ => rfl
  | 1, _ :: _, _, _ => rfl
  | 2, _ :: _ :: _, _, _ => rfl

theorem Format.operandBytes_le (fmt : Format) : fmt.operandBytes ≤ 2 := by cases fmt <;> decide

theorem decode_encode (i : Instr) : ∀ rest : List Byte, decode (encode i ++ rest) = .ok (i, rest) := by
  cases i with
  | ldBcD16 d16 => exact Laws.RoundTrip.ldBcD16 d16
  | ldDeD16 d16 => exact Laws.RoundTrip.ldDeD16 d16
  | ldHlD16 d16 => exact Laws.RoundTrip.ldHlD16 d16
  | ldSpD16 d16 => exact Laws.RoundTrip.ldSpD16 d16
  | ldSpHl => exact Laws.RoundTrip.ldSpHl
  | ldHlSpE8 e8 => exact Laws.RoundTrip.ldHlSpE8 e8
  | ldA16Sp a16 => exact Laws.RoundTrip.ldA16Sp a16
  | pushBc => exact Laws.RoundTrip.pushBc
  | pushDe => exact Laws.RoundTrip.pushDe
  | pushHl => exact Laws.RoundTrip.pushHl
  | pushAf => exact Laws.RoundTrip.pushAf
  | popBc => exact Laws.RoundTrip.popBc
  | popDe => exact Laws.RoundTrip.popDe
  | popHl => exact Laws.RoundTrip.popHl
  | popAf => exact Laws.RoundTrip.popAf

/-- An instruction's own operand is one that its format admits (R90). -/
theorem Instr.operandOk (i : Instr) : i.format.operandOk i.operand = true := by
  cases i with
  | ldBcD16 d16 => exact Laws.WellFormed.ldBcD16 d16
  | ldDeD16 d16 => exact Laws.WellFormed.ldDeD16 d16
  | ldHlD16 d16 => exact Laws.WellFormed.ldHlD16 d16
  | ldSpD16 d16 => exact Laws.WellFormed.ldSpD16 d16
  | ldHlSpE8 e8 => exact Laws.WellFormed.ldHlSpE8 e8
  | ldA16Sp a16 => exact Laws.WellFormed.ldA16Sp a16
  | _ => rfl

/-! ## Immediates (R82, R83) -/

theorem sext16_toInt (b : Byte) : (sext16 b).toInt = b.toInt :=
  BitVec.toInt_signExtend_of_le (by decide)

/-- Three bytes that an encoding is decode to its instruction. -/
theorem decode_imm16 {b0 b1 b2 : Byte} {i : Instr} (he : encode i = [b0, b1, b2]) : decode [b0, b1, b2] = .ok (i, []) := by
  simpa [he] using decode_encode i []

/-! ## The assembler (R90) -/

theorem assemble_of_format {b0 : Byte} {fmt : Format} (h : formatOf b0 = some fmt) (o : Option Int) :
    assemble b0 o = if fmt.operandOk o then some (b0 :: fmt.emit (o.getD 0)) else none := by
  rw [assemble, h]

theorem assemble_eq_none {b0 : Byte} {fmt : Format} {o : Option Int} (h : formatOf b0 = some fmt)
    (ho : fmt.operandOk o = false) : assemble b0 o = none := by
  rw [assemble_of_format h, ho]
  rfl

theorem assemble_unspelled {b0 : Byte} (h : formatOf b0 = none) (o : Option Int) : assemble b0 o = none := by
  rw [assemble, h]

theorem operandOk_e8_iff (v : Int) : Format.opE8.operandOk (some v) = true ↔ -128 ≤ v ∧ v ≤ 127 := by
  simp [Format.operandOk]

theorem operandOk_imm16_iff (v : Int) : Format.opImm16.operandOk (some v) = true ↔ 0 ≤ v ∧ v ≤ 0xFFFF := by
  simp [Format.operandOk]

/-- A 16-bit immediate is emitted from its unsigned value. -/
theorem emit_imm16 (v : Word) : Format.opImm16.emit v.toNat = [lo v, hi v] := by
  simp [Format.emit]

/-- An e8 is emitted from its signed value. -/
theorem emit_e8 (b : Byte) : Format.opE8.emit b.toInt = [b] := by
  simp [Format.emit]

/-- What a format emits for an instruction's operand are the bytes after its opcode byte. -/
theorem encode_eq_emit (i : Instr) : encode i = (encode i).headD 0 :: i.format.emit (i.operand.getD 0) := by
  have imm16 (b0 : Byte) (v : Word) : [b0, lo v, hi v] = b0 :: Format.opImm16.emit v.toNat := by rw [emit_imm16]
  cases i with
  | ldBcD16 d16 => exact imm16 _ d16
  | ldDeD16 d16 => exact imm16 _ d16
  | ldHlD16 d16 => exact imm16 _ d16
  | ldSpD16 d16 => exact imm16 _ d16
  | ldHlSpE8 e8 => exact congrArg (0xF8 :: ·) (emit_e8 e8).symm
  | ldA16Sp a16 => exact imm16 _ a16
  | _ => rfl

theorem formatOf_encode (i : Instr) : formatOf ((encode i).headD 0) = some i.format := by
  cases i <;> rfl

theorem assemble_encode (i : Instr) : assemble ((encode i).headD 0) i.operand = some (encode i) := by
  rw [assemble_of_format (formatOf_encode i), if_pos i.operandOk, ← encode_eq_emit]

/-- Every number from -128 to 127 is the signed value of its two's complement byte. -/
theorem ofInt_toInt_byte {v : Int} (h1 : -128 ≤ v) (h2 : v ≤ 127) : (BitVec.ofInt 8 v).toInt = v := by
  rw [BitVec.toInt_ofInt]
  exact Int.bmod_eq_of_le (by omega) (by omega)

/-! ## The statements -/

/-- Settles O15, by the round trip of each instruction. -/
theorem decodeOfEncode : Obligations.DecodeOfEncode := by
  unfold Obligations.DecodeOfEncode
  exact decode_encode

/-- Settles O16: the row that decodes looks at the operand's bytes of its format and encodes to them, and drops no other. -/
theorem encodeOfDecode : Obligations.EncodeOfDecode := by
  unfold Obligations.EncodeOfDecode
  intro bs i rest h
  obtain ⟨b0, tail, rfl, -, hrow, hlen, rfl⟩ := decode_ok h
  rw [encode_of_instrOf hrow, take_operand_bytes i.format.operandBytes_le hlen, List.cons_append, List.take_append_drop]

/-- Settles O17: the words are encodings, whose immediates have their low byte first. -/
theorem writtenOutWordsDecode : Obligations.WrittenOutWordsDecode := by
  unfold Obligations.WrittenOutWordsDecode
  exact ⟨decode_encode (.ldBcD16 0xA099) [], decode_encode .ldSpHl [], decode_encode (.ldHlSpE8 0xFB) [],
    decode_encode (.ldA16Sp 0xFC11) [], decode_encode .pushAf [], decode_encode .popAf []⟩

/-- Settles O18, over the 256 bytes. -/
theorem tablesHoldFifteenEntries : Obligations.TablesHoldFifteenEntries := by
  unfold Obligations.TablesHoldFifteenEntries
  have entries : ∀ b : Byte, (lookup b false).isSome = true ↔
      b ∈ ([0x01, 0x11, 0x21, 0x31, 0xF9, 0xF8, 0x08, 0xC5, 0xD5, 0xE5, 0xF5, 0xC1, 0xD1, 0xE1, 0xF1] : List Byte) := by
    decide
  exact fun b => ⟨entries b, (lookup_isSome b).symm, rfl⟩

/-- Settles O19: a byte with no entry in the table has no format either. -/
theorem unadmittedBytesRejectedByName : Obligations.UnadmittedBytesRejectedByName := by
  unfold Obligations.UnadmittedBytesRejectedByName
  exact ⟨fun b rest hb hl => decode_unsupported hb ((formatOf_eq_none_iff b).2 hl) rest, decode_prefix⟩

/-- Settles O20: each of the five rows makes its immediate by `cat`, and sign extension keeps the signed value. -/
theorem immediatesAsTheSpecReadsThem : Obligations.ImmediatesAsTheSpecReadsThem := by
  unfold Obligations.ImmediatesAsTheSpecReadsThem
  refine ⟨fun x hx b1 b2 => ⟨cat b2 b1, ?_, ?_⟩, fun e => ⟨decode_encode (.ldHlSpE8 e) [], sext16_toInt e, ?_, ?_⟩⟩
  · simp only [List.mem_cons, List.not_mem_nil, or_false] at hx
    rcases hx with rfl | rfl | rfl | rfl | rfl
    all_goals exact decode_imm16 (by simp [encode])
  · rw [cat_toNat]
    omega
  · exact BitVec.le_toInt e
  · exact Int.le_of_lt_add_one (BitVec.toInt_lt (x := e))

/-- Settles O21: a line assembles exactly when its format admits its operand, so the refused ones are those out of its range. -/
theorem assembleEmitsEncoding : Obligations.AssembleEmitsEncoding := by
  unfold Obligations.AssembleEmitsEncoding
  have imm16_row : ∀ b0 ∈ ([0x01, 0x11, 0x21, 0x31, 0x08] : List Byte), formatOf b0 = some .opImm16 := by decide
  have op_row : ∀ b0 ∈ ([0xF9, 0xC5, 0xD5, 0xE5, 0xF5, 0xC1, 0xD1, 0xE1, 0xF1] : List Byte), formatOf b0 = some .op := by
    decide
  have missing : ∀ b0 ∈ ([0x01, 0x11, 0x21, 0x31, 0x08, 0xF8] : List Byte), assemble b0 none = none := by decide
  refine ⟨assemble_encode, fun v h1 h2 => ?_, fun _ _ _ hf ho => assemble_eq_none hf ho, fun _ o hf => assemble_unspelled hf o,
    fun v hv => ?_, fun b0 hb v hv => ?_, missing, fun b0 hb v => assemble_eq_none (op_row b0 hb) rfl⟩
  · have admitted := (operandOk_e8_iff v).2 ⟨h1, h2⟩
    exact ⟨BitVec.ofInt 8 v, (assemble_of_format rfl _).trans (if_pos admitted), ofInt_toInt_byte h1 h2⟩
  · exact assemble_eq_none rfl (Bool.eq_false_iff.2 fun h => absurd ((operandOk_e8_iff v).1 h) (by omega))
  · exact assemble_eq_none (imm16_row b0 hb) (Bool.eq_false_iff.2 fun h => absurd ((operandOk_imm16_iff v).1 h) (by omega))

end Sys2Proof
end

section
/-! PROOFS. The statements about PUSH, POP, the 16-bit loads and SP arithmetic, instruction by instruction (41_load16.md,
42_stack.md). -/

namespace Sys2Proof.Machine

/-! ## The two loads that no factory makes -/

/-- The flags of SP + e8 from the numbers (R138). -/
theorem State.setAddFlags_f_toNat (s : State) (v : Word) (e : Byte) :
    (s.setAddFlags v e).f = (if 16 ≤ v.toNat % 16 + e.toNat % 16 then 0x20 else 0) |||
      (if 256 ≤ v.toNat % 256 + e.toNat then 0x10 else 0) := by
  simp only [State.setAddFlags_f, halfCarryLow_iff, carryLow_iff]

theorem execLdHlSpE8_eq (e8 : Byte) (s : State) :
    execLdHlSpE8 e8 s = .next { s with
      f := (s.fetchOperand.setAddFlags s.sp e8).f
      h := hi (addSigned s.sp e8)
      l := lo (addSigned s.sp e8)
      pc := s.pc + 1
      trace := s.trace ++ [.read (s.pc + 1)] } := by
  rw [execLdHlSpE8, State.setPair_hl]
  simp

/-- What a write leaves in memory depends on the AddressSpace and its contents alone. -/
theorem State.memWrite_mem_congr (s t : State) (hs : s.space = t.space) (hm : s.mem = t.mem) (a : Word) (v : Byte) :
    (s.memWrite a v).mem = (t.memWrite a v).mem := by
  unfold State.memWrite
  rw [hs]
  split
  · rw [hm]
  · exact hm

theorem State.storeWord_mem_congr (s t : State) (hs : s.space = t.space) (hm : s.mem = t.mem) (a v : Word) :
    (s.storeWord a v).mem = (t.storeWord a v).mem :=
  State.memWrite_mem_congr _ _ (by simpa using hs) (State.memWrite_mem_congr s t hs hm a (lo v)) (a + 1) (hi v)

/-- Everything `LD (a16),SP` does: the store finds memory as the two fetches before it left it. -/
theorem execLdA16Sp_eq (a16 : Word) (s : State) :
    execLdA16Sp a16 s = .next { s with
      pc := s.pc + 2
      mem := (s.storeWord a16 s.sp).mem
      trace := s.trace ++
        [.read (s.pc + 1), .read (s.pc + 2), .write a16 (lo s.sp), .write (a16 + 1) (hi s.sp)] } := by
  have hmem : (s.fetchOperand.fetchOperand.storeWord a16 s.sp).mem = (s.storeWord a16 s.sp).mem :=
    State.storeWord_mem_congr s.fetchOperand.fetchOperand s (by simp) (by simp) a16 s.sp
  rw [execLdA16Sp, State.storeWord_eq, hmem, State.fetchOperand_twice]
  simp

/-! ## The table entries of the other factories (R114) -/

theorem accLo_accOfWord (v : Word) : accLo (accOfWord v) = lo v := by
  apply BitVec.eq_of_toNat_eq
  rw [accLo, accOfWord, BitVec.ofInt_natCast, BitVec.toNat_ofNat, lo_toNat]

theorem accHi_accOfWord (v : Word) : accHi (accOfWord v) = hi v := by
  rw [accHi, accWord_accOfWord]

theorem runOps_ldSpHl (acc0 : Int) (s : State) (ctx : Context) :
    runOps [.readPair .hl, .writePair .sp] ⟨s, acc0, ctx⟩ =
      .ok ⟨s.setPair .sp (s.getPair .hl), accOfWord (s.getPair .hl), ctx⟩ := by
  simp only [runOps, MicroOp.run, accWord_accOfWord]

theorem runOps_ldHlSpE8 (acc0 : Int) (s : State) (ctx : Context) :
    runOps [.fetchLo, .addSpE8, .writePair .hl] ⟨s, acc0, ctx⟩ =
      .ok ⟨(s.fetchOperand.setAddFlags s.sp s.fetchNext.1).setPair .hl (addSigned s.sp s.fetchNext.1),
        accOfWord (addSigned s.sp s.fetchNext.1), ctx⟩ := by
  simp only [runOps, MicroOp.run, accLo_accOfByte, accWord_accOfWord, State.fetchNext_snd, State.fetchOperand_sp]

theorem runOps_ldA16Sp (acc0 : Int) (s : State) (ctx : Context) :
    runOps [.fetchLo, .fetchHi, .storeSpLo, .storeSpHi] ⟨s, acc0, ctx⟩ =
      .ok ⟨s.fetchOperand.fetchOperand.storeWord (cat s.fetchNext.2.fetchNext.1 s.fetchNext.1) s.sp,
        accOfWord (cat s.fetchNext.2.fetchNext.1 s.fetchNext.1), ctx⟩ := by
  simp only [runOps, MicroOp.run, accLo_accOfByte, accWord_accOfWord, State.fetchNext_snd, State.fetchOperand_sp,
    State.memWrite_sp, State.storeWord]

/-- R114: Push(qq) reads the pair, then pushes its high and its low byte. -/
theorem runOps_push (qq : Pair) (acc0 : Int) (s : State) (ctx : Context) :
    runOps [.readPair qq, .pushHi, .pushLo] ⟨s, acc0, ctx⟩ =
      .ok ⟨s.pushWord (s.getPair qq), accOfWord (s.getPair qq), ctx⟩ := by
  simp only [runOps, MicroOp.run, accLo_accOfWord, accHi_accOfWord, State.pushWord]

/-- R114: Pop(qq) pops the low byte, puts the high byte above it in the accumulator and writes the pair from it. -/
theorem runOps_pop (qq : Pair) (acc0 : Int) (s : State) (ctx : Context) :
    runOps [.popLo, .popHi, .writePair qq] ⟨s, acc0, ctx⟩ =
      .ok ⟨s.popWord.2.setPair qq s.popWord.1, accOfWord s.popWord.1, ctx⟩ := by
  simp only [runOps, MicroOp.run, accLo_accOfByte, accWord_accOfWord, State.popWord]

theorem Instruction.execute_ldSpHl (identifier : String) (n : Nat) (acc0 : Int) (s : State) :
    (Instruction.mk identifier n [.readPair .hl, .writePair .sp]).execute acc0 s = execLdSpHl s :=
  Instruction.execute_of_runOps (x := ⟨identifier, n, _⟩) (runOps_ldSpHl acc0 s [])

theorem Instruction.execute_ldHlSpE8 (identifier : String) (n : Nat) (acc0 : Int) (s : State) :
    (Instruction.mk identifier n [.fetchLo, .addSpE8, .writePair .hl]).execute acc0 s = execLdHlSpE8 s.fetchNext.1 s :=
  Instruction.execute_of_runOps (x := ⟨identifier, n, _⟩) (runOps_ldHlSpE8 acc0 s [])

theorem Instruction.execute_ldA16Sp (identifier : String) (n : Nat) (acc0 : Int) (s : State) :
    (Instruction.mk identifier n [.fetchLo, .fetchHi, .storeSpLo, .storeSpHi]).execute acc0 s =
      execLdA16Sp (cat s.fetchNext.2.fetchNext.1 s.fetchNext.1) s :=
  Instruction.execute_of_runOps (x := ⟨identifier, n, _⟩) (runOps_ldA16Sp acc0 s [])

theorem Instruction.execute_push (qq : Pair) (identifier : String) (acc0 : Int) (s : State) :
    (Instruction.push qq identifier).execute acc0 s = pushPair qq s :=
  Instruction.execute_of_runOps (x := .push qq identifier) (runOps_push qq acc0 s [])

theorem Instruction.execute_pop (qq : Pair) (identifier : String) (acc0 : Int) (s : State) :
    (Instruction.pop qq identifier).execute acc0 s = popPair qq s :=
  Instruction.execute_of_runOps (x := .pop qq identifier) (runOps_pop qq acc0 s [])

/-! ## PUSH and POP of any pair -/

/-- PUSH of a pair with high byte `x` and low byte `y`: what it stores, and that it changes nothing else (R160). -/
theorem pushPair_stores {qq : Pair} {s : State} {x y : Byte} (hq : s.getPair qq = cat x y) :
    ∃ t, pushPair qq s = .next t ∧
      t = { s with sp := s.sp - 2, mem := t.mem, trace := s.trace ++ [.write (s.sp - 1) x, .write (s.sp - 2) y] } ∧
      (s.space = .flatRam → s.mem.wf → t.mem.read (s.sp - 1).toNat = x ∧ t.mem.read (s.sp - 2).toNat = y) ∧
      (∀ a : Word, a ≠ s.sp - 1 → a ≠ s.sp - 2 → t.mem.read a.toNat = s.mem.read a.toNat) ∧
      (∀ k, s.space = .external k → t.mem = s.mem) := by
  refine ⟨_, pushPair_eq qq s, ?_, fun hs hm => ?_, fun a h1 h2 => s.pushWord_read_ne _ h1 h2,
    fun k hk => State.pushWord_mem_external hk _⟩
  · rw [hq, hi_cat, lo_cat]
  · simpa [hq] using State.pushWord_read hs hm (s.getPair qq)

/-- With FlatRAM the bytes POP reads are memory's at SP and SP+1. -/
theorem popBytes_flatRam {s : State} (h : s.space = .flatRam) :
    s.answer s.sp = s.mem.read s.sp.toNat ∧ (s.memRead s.sp).2.answer (s.sp + 1) = s.mem.read (s.sp + 1).toNat :=
  ⟨State.answer_flatRam h _, State.answer_flatRam (s := s.log _) h _⟩

/-- R160: after PUSH the word POP reads is the one pushed. -/
theorem popWord_pushWord {s : State} (h : s.space = .flatRam) (hm : s.mem.wf) (v : Word) :
    (s.pushWord v).popWord.1 = v := by
  have hsp : (s.pushWord v).sp = s.sp - 2 := by rw [State.pushWord_eq]
  have hspace : (s.pushWord v).space = .flatRam := by rw [State.pushWord_eq]; exact h
  have hnext : s.sp - 2 + 1 = s.sp - 1 := by bv_omega
  obtain ⟨hhi, hlo⟩ := State.pushWord_read h hm v
  rw [State.popWord_fst_flatRam hspace, hsp, hnext, hhi, hlo, cat_hi_lo]

/-- R160: POP after PUSH brings SP back and leaves the bytes that PUSH stored. -/
theorem popWord_pushWord_state (s : State) (v : Word) :
    (s.pushWord v).popWord.2 = { s with mem := (s.pushWord v).mem, trace := (s.pushWord v).popWord.2.trace } := by
  have hsp : s.sp - 2 + 2 = s.sp := by bv_omega
  rw [State.popWord_snd, State.pushWord_eq, hsp]

/-- Writing a pair with what it held before memory and the Trace changed leaves every register; for AF this needs R23's
invariant. -/
theorem State.setPair_getPair {s : State} (hf : s.f &&& 0x0F = 0) (qq : Pair) (m : Memory) (tr : List Transaction) :
    State.setPair { s with mem := m, trace := tr } qq (s.getPair qq) = { s with mem := m, trace := tr } := by
  cases qq with
  | af => rw [State.setPair_af, State.getPair, hi_cat, lo_cat, mask_of_low_zero hf]
  | _ => simp [State.getPair]

/-- R160: POP of the pair that was just pushed restores everything but memory and the Trace. -/
theorem popPair_pushPair {s : State} (h : s.space = .flatRam) (hm : s.mem.wf) (hf : s.f &&& 0x0F = 0) (qq : Pair) :
    ∃ t u, pushPair qq s = .next t ∧ popPair qq t = .next u ∧ u = { s with mem := t.mem, trace := u.trace } := by
  refine ⟨_, _, rfl, rfl, ?_⟩
  rw [popWord_pushWord h hm, State.setPair_trace, popWord_pushWord_state]
  exact State.setPair_getPair hf qq _ _

theorem execPopAf_eq (s : State) :
    execPopAf s = .next { s with
      a := (s.memRead s.sp).2.answer (s.sp + 1)
      f := s.answer s.sp &&& 0xF0
      sp := s.sp + 2
      trace := s.trace ++ [.read s.sp, .read (s.sp + 1)] } := by
  refine (popPair_eq .af s).trans ?_
  rw [State.setPair_af, hi_cat, lo_cat]

/-- The mask of F keeps the four flags' bits (R24). -/
theorem getLsbD_mask (v : Byte) (x : Flag) : (v &&& 0xF0).getLsbD x.bit = v.getLsbD x.bit := by
  cases x <;> simp [Flag.bit]

/-! ## The statements -/

/-- Settles O47: the sum and its flags as numbers, written through the pair HL. -/
theorem ldHlSpE8AddsSignedByte : Obligations.LdHlSpE8AddsSignedByte := by
  unfold Obligations.LdHlSpE8AddsSignedByte
  intro e8 s
  refine ⟨decode_encode (.ldHlSpE8 e8) [], rfl, fun acc0 x hx => ?_, rfl, _, execLdHlSpE8_eq e8 s, rfl,
    State.setAddFlags_f_toNat _ s.sp e8, ?_⟩
  · cases hx
    exact Instruction.execute_ldHlSpE8 _ _ acc0 s
  · rw [cat_hi_lo]
    exact addSigned_toNat s.sp e8

/-- Settles O49, from the rules for the 16-bit store. -/
theorem ldA16SpStores : Obligations.LdA16SpStores := by
  unfold Obligations.LdA16SpStores
  intro a16 s
  refine ⟨decode_encode (.ldA16Sp a16) [], rfl, fun acc0 x hx => ?_, rfl, _, execLdA16Sp_eq a16 s, rfl,
    fun hs hm => State.storeWord_read hs hm a16 s.sp, fun _ h1 h2 => s.storeWord_read_ne s.sp h1 h2,
    fun _ hk => State.storeWord_mem_external hk a16 s.sp⟩
  cases hx
  exact Instruction.execute_ldA16Sp _ _ acc0 s

/-- Settles O51: PUSH of any pair, at BC. -/
theorem pushBcStoresPair : Obligations.PushBcStoresPair := by
  unfold Obligations.PushBcStoresPair
  exact fun s => ⟨decode_encode .pushBc [], rfl, rfl, pushPair_stores (qq := .bc) rfl⟩

/-- Settles O52: PUSH of any pair, at DE. -/
theorem pushDeStoresPair : Obligations.PushDeStoresPair := by
  unfold Obligations.PushDeStoresPair
  exact fun s => ⟨decode_encode .pushDe [], rfl, rfl, pushPair_stores (qq := .de) rfl⟩

/-- Settles O53: PUSH of any pair, at HL. -/
theorem pushHlStoresPair : Obligations.PushHlStoresPair := by
  unfold Obligations.PushHlStoresPair
  exact fun s => ⟨decode_encode .pushHl [], rfl, rfl, pushPair_stores (qq := .hl) rfl⟩

/-- Settles O54: PUSH of any pair, at AF; the byte stored is F itself, so its low nibble is F's. -/
theorem pushAfStoresPair : Obligations.PushAfStoresPair := by
  unfold Obligations.PushAfStoresPair
  intro s
  obtain ⟨t, ht, hstate, hread, hframe, hexternal⟩ := pushPair_stores (qq := .af) (s := s) rfl
  refine ⟨decode_encode .pushAf [], rfl, rfl, t, ht, hstate, fun hs hm => ?_, hframe, hexternal⟩
  obtain ⟨ha, hf⟩ := hread hs hm
  exact ⟨ha, hf, fun hlow => hf ▸ hlow⟩

/-- Settles O43, from the two readings of LoadImm16(DE), meaning and table entry. -/
theorem ldDeD16LoadsImmediate : Obligations.LdDeD16LoadsImmediate := by
  unfold Obligations.LdDeD16LoadsImmediate
  intro d16 s
  refine ⟨decode_encode (.ldDeD16 d16) [], rfl, fun acc0 x hx => ?_, rfl, loadImm16_eq .de d16 s⟩
  cases hx
  exact Instruction.execute_loadImm16 .de "LD DE,d16" acc0 s

/-- Settles O44, from the two readings of LoadImm16(HL), meaning and table entry. -/
theorem ldHlD16LoadsImmediate : Obligations.LdHlD16LoadsImmediate := by
  unfold Obligations.LdHlD16LoadsImmediate
  intro d16 s
  refine ⟨decode_encode (.ldHlD16 d16) [], rfl, fun acc0 x hx => ?_, rfl, loadImm16_eq .hl d16 s⟩
  cases hx
  exact Instruction.execute_loadImm16 .hl "LD HL,d16" acc0 s

/-- Settles O45, from the two readings of LoadImm16(SP), meaning and table entry. -/
theorem ldSpD16LoadsImmediate : Obligations.LdSpD16LoadsImmediate := by
  unfold Obligations.LdSpD16LoadsImmediate
  intro d16 s
  refine ⟨decode_encode (.ldSpD16 d16) [], rfl, fun acc0 x hx => ?_, rfl, loadImm16_eq .sp d16 s⟩
  cases hx
  exact Instruction.execute_loadImm16 .sp "LD SP,d16" acc0 s

/-- Settles O55: POP of any pair, at BC. -/
theorem popBcLoadsPair : Obligations.PopBcLoadsPair := by
  unfold Obligations.PopBcLoadsPair
  intro s
  refine ⟨decode_encode .popBc [], rfl, rfl, (popPair_eq .bc s).trans ?_, popBytes_flatRam⟩
  rw [State.setPair_bc, hi_cat, lo_cat]

/-- Settles O56: POP of any pair, at DE. -/
theorem popDeLoadsPair : Obligations.PopDeLoadsPair := by
  unfold Obligations.PopDeLoadsPair
  intro s
  refine ⟨decode_encode .popDe [], rfl, rfl, (popPair_eq .de s).trans ?_, popBytes_flatRam⟩
  rw [State.setPair_de, hi_cat, lo_cat]

/-- Settles O57: POP of any pair, at HL. -/
theorem popHlLoadsPair : Obligations.PopHlLoadsPair := by
  unfold Obligations.PopHlLoadsPair
  intro s
  refine ⟨decode_encode .popHl [], rfl, rfl, (popPair_eq .hl s).trans ?_, popBytes_flatRam⟩
  rw [State.setPair_hl, hi_cat, lo_cat]

/-- Settles O58: POP of any pair, at AF, whose mask keeps the four flags' bits. -/
theorem popAfLoadsPairMasked : Obligations.PopAfLoadsPairMasked := by
  unfold Obligations.PopAfLoadsPairMasked
  intro s
  refine ⟨decode_encode .popAf [], rfl, rfl, execPopAf_eq s, fun t ht => ?_, popBytes_flatRam⟩
  cases (execPopAf_eq s).symm.trans ht
  exact ⟨getLsbD_mask _ .z, getLsbD_mask _ .n, getLsbD_mask _ .h, getLsbD_mask _ .c⟩

/-- Settles O59, from the rule for POP after PUSH of any pair. -/
theorem popAfterPushRestores : Obligations.PopAfterPushRestores := by
  unfold Obligations.PopAfterPushRestores
  intro s hs hm hf x hx
  simp only [List.mem_cons, List.not_mem_nil, or_false] at hx
  rcases hx with rfl | rfl | rfl | rfl
  · exact popPair_pushPair hs hm hf .bc
  · exact popPair_pushPair hs hm hf .de
  · exact popPair_pushPair hs hm hf .hl
  · exact popPair_pushPair hs hm hf .af

end Sys2Proof.Machine
end

section
/-! PROOFS. The statements about one driver step, about every instruction's execute, and about stores that the next fetches read
(40_execution.md, 20_memory.md, 10_state.md). -/

namespace Sys2Proof.Machine

/-! ## The step from what the fetch finds -/

/-- Where the code bytes make a row's instruction, the fetch finds it. -/
theorem fetch_of_instrOf {s : State} {i : Instr}
    (hi : instrOf (codeBytes s).1 (codeBytes s).2.1 (codeBytes s).2.2 = some i) :
    fetch s = .instr i (s.log (.read s.pc)) := by
  have hformat := formatOf_eq_of_instrOf hi
  rw [State.codeBytes_fst] at hformat
  rcases fetch_cases s with ⟨j, hf, -, hj⟩ | ⟨-, -, hn⟩ | ⟨-, hp⟩
  · cases hi.symm.trans hj
    exact hf
  · cases hn.symm.trans hformat
  · rw [hp, formatOf_prefixByte] at hformat
    cases hformat

/-- The same for the fetch of a step, which begins by making the last Trace history. -/
theorem fetch_beginStep_of_instrOf {s : State} {i : Instr}
    (hi : instrOf (codeBytes s).1 (codeBytes s).2.1 (codeBytes s).2.2 = some i) :
    fetch s.beginStep = .instr i (s.beginStep.log (.read s.pc)) :=
  fetch_of_instrOf (by rwa [codeBytes_beginStep])

theorem step_of_instrOf {s : State} {i : Instr} (hs : s.fault = none)
    (hi : instrOf (codeBytes s).1 (codeBytes s).2.1 (codeBytes s).2.2 = some i) :
    step s = completeStep i (exec i (s.beginStep.log (.read s.pc))) := by
  simp only [step, hs, fetch_beginStep_of_instrOf hi]

/-- A byte with no entry, which no row's instruction begins with, raises UnsupportedOpcode (R181). -/
theorem step_of_no_entry {s : State} (hs : s.fault = none) (hp : s.answer s.pc ≠ prefixByte)
    (hn : formatOf (s.answer s.pc) = none) :
    step s = .next ((s.beginStep.log (.read s.pc)).raiseUnsupported s.pc (s.answer s.pc) false) := by
  rcases step_cases hs with ⟨i, _, -, -, hi, -⟩ | ⟨-, -, hstep⟩ | ⟨hp', -⟩
  · cases hn.symm.trans (formatOf_eq_of_instrOf hi)
  · exact hstep
  · exact absurd hp' hp

/-- After 0xCB, which selects the extended table, the byte after it raises UnsupportedOpcode (R88). -/
theorem step_of_prefix {s : State} (hs : s.fault = none) (hp : s.answer s.pc = prefixByte) :
    step s = .next (((s.beginStep.log (.read s.pc)).log (.read (s.pc + 1))).raiseUnsupported s.pc
      ((s.log (.read s.pc)).answer (s.pc + 1)) true) := by
  rcases step_cases hs with ⟨_, _, -, hp', -⟩ | ⟨hp', -⟩ | ⟨-, hstep⟩
  · exact absurd hp hp'
  · exact absurd hp hp'
  · exact hstep

/-! ## What an execute leaves alone, and its transactions (R35, R69) -/

/-- No operation binds another AddressSpace, and none touches the history or the cycle label of earlier steps. -/
theorem kept_labels (Q : AddressSpace → List Transaction → Option Nat → Prop) :
    Kept (fun s => Q s.space s.past s.cycles) where
  log _ _ h := h
  memWrite _ _ _ h := by simpa using h
  setPc _ _ h := h
  setSp _ _ h := h
  setPair _ _ _ h := by simpa using h
  setAddFlags _ _ _ h := h

/-- The transactions of an execute, in order, from the state it starts in (R69). -/
def execTransactions (i : Instr) (s : State) : List Transaction :=
  match i with
  | .ldBcD16 _ => [.read (s.pc + 1), .read (s.pc + 2)]
  | .ldDeD16 _ => [.read (s.pc + 1), .read (s.pc + 2)]
  | .ldHlD16 _ => [.read (s.pc + 1), .read (s.pc + 2)]
  | .ldSpD16 _ => [.read (s.pc + 1), .read (s.pc + 2)]
  | .ldSpHl => []
  | .ldHlSpE8 _ => [.read (s.pc + 1)]
  | .ldA16Sp a => [.read (s.pc + 1), .read (s.pc + 2), .write a (lo s.sp), .write (a + 1) (hi s.sp)]
  | .pushBc => [.write (s.sp - 1) s.b, .write (s.sp - 2) s.c]
  | .pushDe => [.write (s.sp - 1) s.d, .write (s.sp - 2) s.e]
  | .pushHl => [.write (s.sp - 1) s.h, .write (s.sp - 2) s.l]
  | .pushAf => [.write (s.sp - 1) s.a, .write (s.sp - 2) s.f]
  | .popBc => [.read s.sp, .read (s.sp + 1)]
  | .popDe => [.read s.sp, .read (s.sp + 1)]
  | .popHl => [.read s.sp, .read (s.sp + 1)]
  | .popAf => [.read s.sp, .read (s.sp + 1)]

theorem loadImm16_trace (rr : Pair) (d16 : Word) (s : State) :
    ∃ t, loadImm16 rr d16 s = .next t ∧ t.trace = s.trace ++ [Transaction.read (s.pc + 1), .read (s.pc + 2)] :=
  ⟨_, loadImm16_eq rr d16 s, State.setPair_trace _ rr d16⟩

theorem pushPair_trace {qq : Pair} {s : State} {x y : Byte} (hq : s.getPair qq = cat x y) :
    ∃ t, pushPair qq s = .next t ∧ t.trace = s.trace ++ [Transaction.write (s.sp - 1) x, .write (s.sp - 2) y] :=
  ⟨_, pushPair_eq qq s, by rw [hq, hi_cat, lo_cat]⟩

theorem popPair_trace (qq : Pair) (s : State) :
    ∃ t, popPair qq s = .next t ∧ t.trace = s.trace ++ [Transaction.read s.sp, .read (s.sp + 1)] :=
  ⟨_, popPair_eq qq s, State.setPair_trace _ qq _⟩

theorem exec_trace (i : Instr) (s : State) :
    ∃ t, exec i s = .next t ∧ t.trace = s.trace ++ execTransactions i s := by
  cases i with
  | ldBcD16 d16 => exact loadImm16_trace .bc d16 s
  | ldDeD16 d16 => exact loadImm16_trace .de d16 s
  | ldHlD16 d16 => exact loadImm16_trace .hl d16 s
  | ldSpD16 d16 => exact loadImm16_trace .sp d16 s
  | ldSpHl => exact ⟨_, rfl, (List.append_nil s.trace).symm⟩
  | ldHlSpE8 e8 => exact ⟨_, execLdHlSpE8_eq e8 s, rfl⟩
  | ldA16Sp a16 => exact ⟨_, execLdA16Sp_eq a16 s, rfl⟩
  | pushBc => exact pushPair_trace (qq := .bc) rfl
  | pushDe => exact pushPair_trace (qq := .de) rfl
  | pushHl => exact pushPair_trace (qq := .hl) rfl
  | pushAf => exact pushPair_trace (qq := .af) rfl
  | popBc => exact popPair_trace .bc s
  | popDe => exact popPair_trace .de s
  | popHl => exact popPair_trace .hl s
  | popAf => exact popPair_trace .af s

/-- An execute leaves the fault record, the AddressSpace and the labels of earlier steps alone; its Trace only grows. -/
theorem exec_frame (i : Instr) (s : State) :
    ∃ t, exec i s = .next t ∧ t.fault = s.fault ∧ t.space = s.space ∧ t.past = s.past ∧ t.cycles = s.cycles ∧
      s.trace <+: t.trace := by
  have kept := (kept_fault (· = s.fault)).and
    ((kept_labels fun x y z => x = s.space ∧ y = s.past ∧ z = s.cycles).and (kept_trace_prefix s.trace))
  obtain ⟨t, ht, hfault, ⟨hspace, hpast, hcycles⟩, htrace⟩ := exec_kept kept i ⟨rfl, ⟨rfl, rfl, rfl⟩, List.prefix_rfl⟩
  exact ⟨t, ht, hfault, hspace, hpast, hcycles, htrace⟩

/-! ## Other labels, same step (R38) -/

/-- The state with another history of earlier transactions. -/
def State.withPast (s : State) (p : List Transaction) : State := { s with past := p }

theorem State.answer_withPast {s : State} (h : s.space = .flatRam) (p : List Transaction) (a : Word) :
    (s.withPast p).answer a = s.answer a := by
  rw [State.answer_flatRam h, State.answer_flatRam (s := s.withPast p) h]
  rfl

@[simp] theorem State.withPast_sp (s : State) (p : List Transaction) : (s.withPast p).sp = s.sp := rfl

@[simp] theorem State.setSp_withPast (s : State) (p : List Transaction) (v : Word) :
    (s.withPast p).setSp v = (s.setSp v).withPast p := rfl

@[simp] theorem State.log_withPast (s : State) (p : List Transaction) (x : Transaction) :
    (s.withPast p).log x = (s.log x).withPast p := rfl

@[simp] theorem State.fetchOperand_withPast (s : State) (p : List Transaction) :
    (s.withPast p).fetchOperand = s.fetchOperand.withPast p := rfl

@[simp] theorem State.setFlag_withPast (s : State) (p : List Transaction) (x : Flag) (v : Bool) :
    (s.withPast p).setFlag x v = (s.setFlag x v).withPast p := rfl

@[simp] theorem State.setAddFlags_withPast (s : State) (p : List Transaction) (v : Word) (e : Byte) :
    (s.withPast p).setAddFlags v e = (s.setAddFlags v e).withPast p := by
  simp only [State.setAddFlags, State.setFlag_withPast]

@[simp] theorem State.setPair_withPast (s : State) (p : List Transaction) (rr : Pair) (v : Word) :
    (s.withPast p).setPair rr v = (s.setPair rr v).withPast p := by
  cases rr <;> rfl

@[simp] theorem State.getPair_withPast (s : State) (p : List Transaction) (rr : Pair) :
    (s.withPast p).getPair rr = s.getPair rr := by
  cases rr <;> rfl

@[simp] theorem State.memWrite_withPast (s : State) (p : List Transaction) (a : Word) (v : Byte) :
    (s.withPast p).memWrite a v = (s.memWrite a v).withPast p := by
  have hmem : ((s.withPast p).memWrite a v).mem = (s.memWrite a v).mem := State.memWrite_mem_congr (s.withPast p) s rfl rfl a v
  rw [State.memWrite_eq, hmem, State.memWrite_eq s]
  rfl

theorem State.popByte_withPast {s : State} (h : s.space = .flatRam) (p : List Transaction) :
    (s.withPast p).popByte = (s.popByte.1, s.popByte.2.withPast p) :=
  Prod.ext (State.answer_withPast h p s.sp) rfl

theorem State.popWord_withPast {s : State} (h : s.space = .flatRam) (p : List Transaction) :
    (s.withPast p).popWord = (s.popWord.1, s.popWord.2.withPast p) := by
  simp only [State.popWord, State.popByte_withPast h, State.popByte_withPast (s := s.popByte.2) h]

theorem loadImm16_withPast (rr : Pair) (d16 : Word) (s : State) (p : List Transaction) :
    ∃ t, loadImm16 rr d16 s = .next t ∧ loadImm16 rr d16 (s.withPast p) = .next (t.withPast p) :=
  ⟨_, rfl, by simp [loadImm16]⟩

theorem pushPair_withPast (qq : Pair) (s : State) (p : List Transaction) :
    ∃ t, pushPair qq s = .next t ∧ pushPair qq (s.withPast p) = .next (t.withPast p) :=
  ⟨_, rfl, by simp [pushPair, State.pushWord, State.pushByte]⟩

theorem popPair_withPast (qq : Pair) {s : State} (h : s.space = .flatRam) (p : List Transaction) :
    ∃ t, popPair qq s = .next t ∧ popPair qq (s.withPast p) = .next (t.withPast p) :=
  ⟨_, rfl, by simp [popPair, State.popWord_withPast h]⟩

/-- With FlatRAM an execute does the same whatever the history: POP is the one that reads, and is answered from memory. -/
theorem exec_withPast (i : Instr) {s : State} (h : s.space = .flatRam) (p : List Transaction) :
    ∃ t, exec i s = .next t ∧ exec i (s.withPast p) = .next (t.withPast p) := by
  cases i with
  | ldBcD16 d16 => exact loadImm16_withPast .bc d16 s p
  | ldDeD16 d16 => exact loadImm16_withPast .de d16 s p
  | ldHlD16 d16 => exact loadImm16_withPast .hl d16 s p
  | ldSpD16 d16 => exact loadImm16_withPast .sp d16 s p
  | ldSpHl => exact ⟨_, rfl, rfl⟩
  | ldHlSpE8 e8 =>
    refine ⟨_, rfl, ?_⟩
    simp only [exec, execLdHlSpE8, State.fetchOperand_withPast, State.withPast_sp, State.setAddFlags_withPast,
      State.setPair_withPast]
  | ldA16Sp a16 => exact ⟨_, rfl, by simp [exec, execLdA16Sp, State.storeWord]⟩
  | pushBc => exact pushPair_withPast .bc s p
  | pushDe => exact pushPair_withPast .de s p
  | pushHl => exact pushPair_withPast .hl s p
  | pushAf => exact pushPair_withPast .af s p
  | popBc => exact popPair_withPast .bc h p
  | popDe => exact popPair_withPast .de h p
  | popHl => exact popPair_withPast .hl h p
  | popAf => exact popPair_withPast .af h p

/-- With FlatRAM a step does the same whatever the labels of earlier steps, but for the history it leaves. -/
theorem step_with_labels {s t : State} (h : s.space = .flatRam) (past trace : List Transaction) (cycles : Option Nat)
    (ht : step s = .next t) :
    step { s with past := past, trace := trace, cycles := cycles } = .next (t.withPast (trace.reverse ++ past)) := by
  have hs : s.fault = none := by
    cases hf : s.fault with
    | none => rfl
    | some x => cases (step_of_fault hf).symm.trans ht
  generalize hr : { s with past := past, trace := trace, cycles := cycles } = r
  have hbegin : r.beginStep = s.beginStep.withPast (trace.reverse ++ past) := by subst hr; rfl
  have hpc : r.pc = s.pc := by subst hr; rfl
  have hfault : r.fault = none := by subst hr; exact hs
  have hspace : r.space = .flatRam := by subst hr; exact h
  have hanswer (a : Word) : r.answer a = s.answer a := by
    rw [State.answer_flatRam h, State.answer_flatRam hspace, ← hr]
  have hcode : codeBytes r = codeBytes s := by
    rw [codeBytes_flatRam h, codeBytes_flatRam hspace, ← hr]
  rcases step_cases hs with ⟨i, u, -, -, hi, hu, hstep⟩ | ⟨hp, hn, hstep⟩ | ⟨hp, hstep⟩
  · cases hstep.symm.trans ht
    rw [step_of_instrOf hfault (hcode ▸ hi), hbegin, hpc, State.log_withPast]
    obtain ⟨u', hu', hpast⟩ := exec_withPast i (s := s.beginStep.log (.read s.pc)) h (trace.reverse ++ past)
    cases hu.symm.trans hu'
    rw [hpast]
    rfl
  · cases hstep.symm.trans ht
    rw [step_of_no_entry hfault (by rwa [hpc, hanswer]) (by rwa [hpc, hanswer]), hbegin, hpc, hanswer]
    rfl
  · cases hstep.symm.trans ht
    have hsecond : (r.log (.read s.pc)).answer (s.pc + 1) = (s.log (.read s.pc)).answer (s.pc + 1) := by
      rw [State.answer_flatRam (s := s.log _) h, State.answer_flatRam (s := r.log _) hspace, ← hr]
      rfl
    rw [step_of_prefix hfault (by rwa [hpc, hanswer]), hbegin, hpc, hsecond]
    rfl

/-! ## Reading back what was stored (R55, R56, R66) -/

/-- With FlatRAM, fetching two bytes from an address reads memory there and at the next address. -/
theorem fetchWord_flatRam {s : State} (h : s.space = .flatRam) (a : Word) :
    cat (s.setPc (a - 1)).fetchNext.2.fetchNext.1 (s.setPc (a - 1)).fetchNext.1 =
      cat (s.mem.read (a + 1).toNat) (s.mem.read a.toNat) := by
  have ha : a - 1 + 1 = a := BitVec.sub_add_cancel a 1
  rw [State.fetchNext_fst, State.fetchNext_fst, State.fetchNext_snd, State.fetchOperand_pc, State.setPc_pc, ha,
    State.answer_flatRam (s := (s.setPc (a - 1)).fetchOperand) h, State.answer_flatRam (s := s.setPc (a - 1)) h]
  rfl

/-- Memory after `LD (a16),SP` with FlatRAM: the two stored bytes, and every other byte as before (R137). -/
theorem storeWord_read_cases {s : State} (h : s.space = .flatRam) (hm : s.mem.wf) (a v b : Word) :
    (s.storeWord a v).mem.read b.toNat =
      if b = a then lo v else if b = a + 1 then hi v else s.mem.read b.toNat := by
  obtain ⟨hlo, hhi⟩ := State.storeWord_read h hm a v
  split
  · next hba => rw [hba, hlo]
  · next hba =>
    split
    · next hb1 => rw [hb1, hhi]
    · next hb1 => exact s.storeWord_read_ne v hba hb1

theorem execLdA16Sp_mem (a : Word) (s : State) :
    ∃ t, execLdA16Sp a s = .next t ∧ t.pc = s.pc + 2 ∧ t.space = s.space ∧ t.mem = (s.storeWord a s.sp).mem :=
  ⟨_, execLdA16Sp_eq a s, rfl, rfl, rfl⟩

/-- A step that fetches `LD (a16),SP` stores SP, in the memory it started with, and moves PC three on. -/
theorem step_ldA16Sp {s : State} {a : Word} (hs : s.fault = none) (hc : codeBytes s = (0x08, lo a, hi a)) :
    ∃ t, step s = .next t ∧ t.pc = s.pc + 3 ∧ t.space = s.space ∧ t.mem = (s.storeWord a s.sp).mem := by
  have hrow : instrOf (codeBytes s).1 (codeBytes s).2.1 (codeBytes s).2.2 = some (.ldA16Sp a) := by
    rw [hc]
    exact congrArg (fun v => some (Instr.ldA16Sp v)) (cat_hi_lo a)
  obtain ⟨t, ht, hpc, hspace, hmem⟩ := execLdA16Sp_mem a (s.beginStep.log (.read s.pc))
  refine ⟨_, step_of_fetch hs (fetch_beginStep_of_instrOf hrow) ht, ?_, hspace, hmem.trans ?_⟩
  · have hnext : s.pc + 2 + 1 = s.pc + 3 := by bv_omega
    rw [hpc]
    exact hnext
  · exact State.storeWord_mem_congr (s.beginStep.log (.read s.pc)) s rfl rfl a s.sp

/-! ## Runs and host interactions (R190, R191) -/

/-- A run that ends normally starts in a state without a fault. -/
theorem EndsNormally.start {s t : State} {n : Nat} (h : EndsNormally s n t) : EndsNormally s 0 s := by
  obtain ⟨hrun, ht⟩ := h
  refine ⟨rfl, ?_⟩
  cases n with
  | zero =>
    cases hrun
    exact ht
  | succ n =>
    rw [run_succ] at hrun
    cases hf : s.fault with
    | none => rfl
    | some x =>
      rw [step_of_fault hf] at hrun
      cases hrun

/-- A run of `n + 1` steps that ends normally is a step and a run of `n` that does. -/
theorem endsNormally_succ {s t : State} {n : Nat} :
    EndsNormally s (n + 1) t ↔ ∃ u, step s = .next u ∧ EndsNormally u n t := by
  constructor
  · rintro ⟨hrun, ht⟩
    rw [run_succ] at hrun
    split at hrun
    · next u hu => exact ⟨u, hu, hrun, ht⟩
    · cases hrun
    · cases hrun
  · rintro ⟨u, hu, hrun, ht⟩
    refine ⟨?_, ht⟩
    rw [run_succ, hu]
    exact hrun

/-- No host interaction that completes touches a fault record (D11). -/
theorem hostAct_keeps_fault (act : HostAction) {s t : State} {x : FaultInfo} (hs : s.fault = some x)
    (ht : hostAct act s = .next t) : t.fault = some x := by
  cases act with
  | runStep => cases (step_of_fault hs).symm.trans ht
  | readState => cases ht; exact hs
  | readByte a => cases ht; exact hs
  | writeReg8 r v => cases ht; exact (s.setReg8_fault r v).trans hs
  | writePair rr v => cases ht; exact (s.setPair_fault rr v).trans hs
  | writePc v => cases ht; exact hs
  | writeFlag x v => cases ht; exact hs
  | writeByte a v => cases ht; exact (s.beginStep.memWrite_fault a v).trans hs
  | stop => cases ht; exact hs
  | readInstruction b x => cases ht; exact hs
  | overlapStep => cases ht

/-- An 8-bit write changes registers alone. -/
theorem State.setReg8_eq (s : State) (r : Reg8) (v : Byte) :
    s.setReg8 r v = { s with
      a := (s.setReg8 r v).a, f := (s.setReg8 r v).f, b := (s.setReg8 r v).b, c := (s.setReg8 r v).c
      d := (s.setReg8 r v).d, e := (s.setReg8 r v).e, h := (s.setReg8 r v).h, l := (s.setReg8 r v).l } := by
  cases r <;> rfl

theorem State.getPair_setPair (s : State) (rr : Pair) (v : Word) :
    (s.setPair rr v).getPair rr = if rr = .af then v &&& 0xFFF0 else v := by
  split
  · next h => rw [h, State.getPair_setPair_af]
  · next h => exact s.getPair_setPair_same h v

/-! ## The statements -/

/-- Settles O13: the store is read back by the two fetches. -/
theorem storedStackPointerFetchedBack : Obligations.StoredStackPointerFetchedBack := by
  unfold Obligations.StoredStackPointerFetchedBack
  intro s a hs hm
  obtain ⟨t, ht, -, hspace, hmem⟩ := execLdA16Sp_mem a s
  obtain ⟨hlo, hhi⟩ := State.storeWord_read hs hm a s.sp
  refine ⟨t, ht, ?_⟩
  rw [fetchWord_flatRam (hspace.trans hs), hmem, hlo, hhi, cat_hi_lo]

/-- Settles O14: the next opcode is read from the memory that the store left. -/
theorem nextFetchSeesStoredBytes : Obligations.NextFetchSeesStoredBytes := by
  unfold Obligations.NextFetchSeesStoredBytes
  intro s a hs hm hf hc
  obtain ⟨t, ht, hpc, hspace, hmem⟩ := step_ldA16Sp hf hc
  obtain ⟨hlo, hhi⟩ := State.storeWord_read hs hm a s.sp
  refine ⟨t, ht, hpc, hmem ▸ hlo, hmem ▸ hhi, ?_⟩
  rw [State.codeBytes_fst, State.answer_flatRam (hspace.trans hs), hpc, hmem, storeWord_read_cases hs hm]

/-- Settles O22: bytes that decode are a row's, which is the instruction the step's fetch finds. -/
theorem stepRunsDecodedInstruction : Obligations.StepRunsDecodedInstruction := by
  unfold Obligations.StepRunsDecodedInstruction
  intro s i b0 b1 b2 rest hs hc hd
  obtain ⟨_, _, hbytes, -, hrow, -, -⟩ := decode_ok hd
  cases hbytes
  have hstep := step_of_instrOf hs (i := i) (by rw [hc]; exact hrow)
  refine ⟨hstep, fun hflat => ?_, fun t ht => ?_⟩
  · cases hc.symm.trans (codeBytes_flatRam hflat)
    exact ⟨rfl, rfl, rfl⟩
  · rw [hstep]
    exact congrArg (completeStep i) ht

/-- Settles O25: an execute moves PC by the operand's bytes, and the step moves it by the opcode's. -/
theorem stepAdvancesPcByLength : Obligations.StepAdvancesPcByLength := by
  unfold Obligations.StepAdvancesPcByLength
  have length (i : Instr) (s : State) :
      ∃ t, exec i s = .next t ∧ t.pc + 1 = s.pc + BitVec.ofNat 16 (encode i).length := by
    obtain ⟨t, ht, hpc⟩ := exec_pc i s
    refine ⟨t, ht, ?_⟩
    rw [hpc, encode_length, BitVec.ofNat_add, BitVec.add_assoc, BitVec.add_comm (BitVec.ofNat 16 1)]
    rfl
  refine ⟨length, fun s i s1 hs hf => ?_⟩
  obtain rfl := fetch_instr_state hf
  obtain ⟨t, ht, hpc⟩ := length i (s.beginStep.log (.read s.beginStep.pc))
  exact ⟨_, step_of_fetch hs hf ht, hpc⟩

/-- Settles O26: after the opcode's read come the transactions of the execute. -/
theorem stepTraceIsTheTable : Obligations.StepTraceIsTheTable := by
  unfold Obligations.StepTraceIsTheTable
  intro s i s1 hs hf
  obtain rfl := fetch_instr_state hf
  obtain ⟨t, ht, htrace⟩ := exec_trace i (s.beginStep.log (.read s.beginStep.pc))
  obtain ⟨u, hu, -, -, hpast, -⟩ := exec_frame i (s.beginStep.log (.read s.beginStep.pc))
  cases ht.symm.trans hu
  exact ⟨_, step_of_fetch hs hf ht, hpast, htrace.trans (by cases i <;> rfl)⟩

/-- Settles O27: the step emits its instruction's declared count. -/
theorem stepEmitsDeclaredCycles : Obligations.StepEmitsDeclaredCycles := by
  unfold Obligations.StepEmitsDeclaredCycles
  intro s i s1 hs hf
  obtain ⟨t, ht, -⟩ := exec_of_fetch hs hf
  exact ⟨_, step_of_fetch hs hf ht, congrArg some (by cases i <;> rfl)⟩

/-- Settles O28, from what every operation of an execute keeps. -/
theorem everyInstructionExecutes : Obligations.EveryInstructionExecutes := by
  unfold Obligations.EveryInstructionExecutes
  intro i s
  obtain ⟨t, ht, hfault, hspace, hpast, hcycles, made, htrace⟩ := exec_frame i s
  exact ⟨t, ht, hfault, hspace, hpast, hcycles, made, htrace.symm⟩

/-- Settles O29: what each instruction answers, field by field; `rfl` where a field stays, `trivial` where the table names the
instruction. -/
theorem onlyNamedInstructionsWrite : Obligations.OnlyNamedInstructionsWrite := by
  unfold Obligations.OnlyNamedInstructionsWrite
  intro i s t ht
  cases i with
  | ldBcD16 d16 =>
    cases (loadImm16_eq .bc d16 s).symm.trans ht
    exact ⟨rfl, rfl, trivial, ⟨rfl, rfl⟩, ⟨rfl, rfl⟩, rfl, rfl, trivial⟩
  | ldDeD16 d16 =>
    cases (loadImm16_eq .de d16 s).symm.trans ht
    exact ⟨rfl, rfl, ⟨rfl, rfl⟩, trivial, ⟨rfl, rfl⟩, rfl, rfl, trivial⟩
  | ldHlD16 d16 =>
    cases (loadImm16_eq .hl d16 s).symm.trans ht
    exact ⟨rfl, rfl, ⟨rfl, rfl⟩, ⟨rfl, rfl⟩, trivial, rfl, rfl, trivial⟩
  | ldSpD16 d16 =>
    cases (loadImm16_eq .sp d16 s).symm.trans ht
    exact ⟨rfl, rfl, ⟨rfl, rfl⟩, ⟨rfl, rfl⟩, ⟨rfl, rfl⟩, trivial, rfl, trivial⟩
  | ldSpHl =>
    cases ht
    exact ⟨rfl, rfl, ⟨rfl, rfl⟩, ⟨rfl, rfl⟩, ⟨rfl, rfl⟩, trivial, rfl, rfl⟩
  | ldHlSpE8 e8 =>
    cases (execLdHlSpE8_eq e8 s).symm.trans ht
    exact ⟨trivial, rfl, ⟨rfl, rfl⟩, ⟨rfl, rfl⟩, trivial, rfl, rfl, trivial⟩
  | ldA16Sp a16 =>
    cases (execLdA16Sp_eq a16 s).symm.trans ht
    exact ⟨rfl, rfl, ⟨rfl, rfl⟩, ⟨rfl, rfl⟩, ⟨rfl, rfl⟩, rfl, trivial, trivial⟩
  | pushBc =>
    cases (pushPair_eq .bc s).symm.trans ht
    exact ⟨rfl, rfl, ⟨rfl, rfl⟩, ⟨rfl, rfl⟩, ⟨rfl, rfl⟩, trivial, trivial, rfl⟩
  | pushDe =>
    cases (pushPair_eq .de s).symm.trans ht
    exact ⟨rfl, rfl, ⟨rfl, rfl⟩, ⟨rfl, rfl⟩, ⟨rfl, rfl⟩, trivial, trivial, rfl⟩
  | pushHl =>
    cases (pushPair_eq .hl s).symm.trans ht
    exact ⟨rfl, rfl, ⟨rfl, rfl⟩, ⟨rfl, rfl⟩, ⟨rfl, rfl⟩, trivial, trivial, rfl⟩
  | pushAf =>
    cases (pushPair_eq .af s).symm.trans ht
    exact ⟨rfl, rfl, ⟨rfl, rfl⟩, ⟨rfl, rfl⟩, ⟨rfl, rfl⟩, trivial, trivial, rfl⟩
  | popBc =>
    cases (popPair_eq .bc s).symm.trans ht
    exact ⟨rfl, rfl, trivial, ⟨rfl, rfl⟩, ⟨rfl, rfl⟩, trivial, rfl, rfl⟩
  | popDe =>
    cases (popPair_eq .de s).symm.trans ht
    exact ⟨rfl, rfl, ⟨rfl, rfl⟩, trivial, ⟨rfl, rfl⟩, trivial, rfl, rfl⟩
  | popHl =>
    cases (popPair_eq .hl s).symm.trans ht
    exact ⟨rfl, rfl, ⟨rfl, rfl⟩, ⟨rfl, rfl⟩, trivial, trivial, rfl, rfl⟩
  | popAf =>
    cases (popPair_eq .af s).symm.trans ht
    exact ⟨trivial, trivial, ⟨rfl, rfl⟩, ⟨rfl, rfl⟩, ⟨rfl, rfl⟩, trivial, rfl, rfl⟩

/-- Settles O30: with FlatRAM no answer depends on the history. -/
theorem labelsAreNotObserved : Obligations.LabelsAreNotObserved := by
  unfold Obligations.LabelsAreNotObserved
  exact fun s past trace cycles t hs ht => ⟨_, step_with_labels hs past trace cycles ht, rfl⟩

/-- Settles O31: the two ways a lookup fails. -/
theorem unsupportedOpcodeRecorded : Obligations.UnsupportedOpcodeRecorded := by
  unfold Obligations.UnsupportedOpcodeRecorded
  refine fun s hs => ⟨fun b hb hp hl => ?_, step_of_prefix hs⟩
  subst hb
  exact step_of_no_entry hs hp ((formatOf_eq_none_iff _).2 hl)

/-- Settles O32: a step either runs an instruction, whose byte has an entry, or records a fault, and its byte has none. -/
theorem faultExactlyWhenNoEntry : Obligations.FaultExactlyWhenNoEntry := by
  unfold Obligations.FaultExactlyWhenNoEntry
  intro s t hs ht
  rw [lookup_isSome]
  rcases step_cases hs with ⟨i, u, -, -, hi, hu, hstep⟩ | ⟨-, hn, hstep⟩ | ⟨hp, hstep⟩
  · cases hstep.symm.trans ht
    obtain ⟨u', hu', hfault, -⟩ := exec_frame i (s.beginStep.log (.read s.pc))
    cases hu.symm.trans hu'
    have hformat : formatOf (s.answer s.pc) = some i.format := formatOf_eq_of_instrOf hi
    exact iff_of_true (hfault.trans hs) (by rw [hformat]; rfl)
  · cases hstep.symm.trans ht
    exact iff_of_false nofun (by rw [hn]; decide)
  · cases hstep.symm.trans ht
    exact iff_of_false nofun (by rw [hp]; decide)

/-- Settles O33: the one interaction that could write another record, a step, has no next state. -/
theorem faultRecordIsFinal : Obligations.FaultRecordIsFinal := by
  unfold Obligations.FaultRecordIsFinal
  exact ⟨fun _ => rfl, fun _ _ => step_of_fault, fun act _ _ _ => hostAct_keeps_fault act⟩

/-- Settles O34, by induction on the length of the run: its first state is normal, and so is the rest of it. -/
theorem normalRunIsNormalThroughout : Obligations.NormalRunIsNormalThroughout := by
  unfold Obligations.NormalRunIsNormalThroughout
  intro n
  induction n with
  | zero =>
    intro s t h k hk
    obtain rfl := Nat.le_zero.1 hk
    exact ⟨t, h⟩
  | succ n ih =>
    intro s t h k hk
    cases k with
    | zero => exact ⟨s, h.start⟩
    | succ k =>
      obtain ⟨u, hu, hrest⟩ := endsNormally_succ.1 h
      obtain ⟨v, hv⟩ := ih u t hrest k (Nat.le_of_succ_le_succ hk)
      exact ⟨v, endsNormally_succ.2 ⟨u, hu, hv⟩⟩

/-- Settles O35, one interaction after another, from the rules for registers, flags and bytes of memory. -/
theorem hostInteractionsBetweenSteps : Obligations.HostInteractionsBetweenSteps := by
  unfold Obligations.HostInteractionsBetweenSteps
  intro s
  refine ⟨rfl, rfl, rfl, fun _ _ => rfl, rfl, fun r v => ?_, fun v => ⟨rfl, rfl, rfl, rfl, rfl⟩, fun rr v => ?_,
    fun _ => rfl, fun x v => ?_, fun a v => ?_, fun _ => rfl⟩
  · refine ⟨_, rfl, ?_, fun q hq => s.getReg8_setReg8_of_ne hq v, s.setReg8_eq r v⟩
    rw [State.getReg8_setReg8, if_pos rfl]
  · exact ⟨_, rfl, s.getPair_setPair rr v⟩
  · exact ⟨_, rfl, fun y => s.flag_setFlag x y v, s.setFlag_low_zero x v, rfl⟩
  · have hspace : (s.beginStep.memWrite a v).space = s.space := s.beginStep.memWrite_space a v
    refine ⟨_, rfl, s.beginStep.memWrite_eq a v, fun hs hm => ?_, fun b hb => s.beginStep.memWrite_read_ne v hb,
      fun hs b hb => ?_, fun k hk => State.memWrite_mem_external (s := s.beginStep) hk a v⟩
    · rw [State.answer_flatRam (hspace.trans hs), State.memWrite_read_eq (s := s.beginStep) hs hm]
    · rw [State.answer_flatRam (hspace.trans hs), State.answer_flatRam hs, s.beginStep.memWrite_read_ne v hb]
      rfl

end Sys2Proof.Machine
end

section
/-! PROOFS. The statements about the executor: its primitives, the Context, the table entries from every initial accumulator, and
the reference driver (40_execution.md). -/

namespace Sys2Proof.Machine

/-! ## The accumulator as a number (R103) -/

theorem accOfByte_eq (b : Byte) : accOfByte b = b.toNat := by rw [accOfByte, zext16_toNat]

/-- What FetchHi and PopHi return: the new byte times 256 and the low byte of the accumulator. -/
theorem accOfWord_cat (h : Byte) (acc : Int) : accOfWord (cat h (accLo acc)) = h.toNat * 256 + acc % 256 := by
  rw [accOfWord, cat_toNat, accLo, BitVec.toNat_ofInt]
  omega

theorem accWord_toNat (acc : Int) : ((accWord acc).toNat : Int) = acc % 65536 := by
  rw [accWord, BitVec.toNat_ofInt]
  omega

theorem accLo_toNat (acc : Int) : ((accLo acc).toNat : Int) = acc % 256 := by
  rw [accLo, BitVec.toNat_ofInt]
  omega

theorem accHi_toNat (acc : Int) : ((accHi acc).toNat : Int) = acc / 256 % 256 := by
  have := accWord_toNat acc
  rw [accHi, hi_toNat]
  omega

/-- The accumulator holds a 16-bit value. -/
def AccInRange (acc : Int) : Prop := 0 ≤ acc ∧ acc ≤ 0xFFFF

theorem accOfWord_inRange (v : Word) : AccInRange (accOfWord v) := by
  have := v.isLt
  unfold AccInRange accOfWord
  omega

theorem accOfByte_inRange (b : Byte) : AccInRange (accOfByte b) := accOfWord_inRange (zext16 b)

/-! ## The table entries (R84, R114) -/

/-- An instruction's table entry, from whatever initial accumulator, does what `exec` does for the operand its fetches are
answered, and declares the same cycle count. -/
theorem execute_of_instrOf {b0 : Byte} {s : State} {i : Instr}
    (h : instrOf b0 s.fetchNext.1 s.fetchNext.2.fetchNext.1 = some i) :
    ∃ x, lookup b0 false = some x ∧ x.cycles = cyclesOf i ∧ ∀ acc0, x.execute acc0 s = exec i s := by
  unfold instrOf at h
  split at h
  all_goals cases h
  · exact ⟨_, rfl, rfl, fun acc0 => Instruction.execute_loadImm16 .bc _ acc0 s⟩
  · exact ⟨_, rfl, rfl, fun acc0 => Instruction.execute_loadImm16 .de _ acc0 s⟩
  · exact ⟨_, rfl, rfl, fun acc0 => Instruction.execute_loadImm16 .hl _ acc0 s⟩
  · exact ⟨_, rfl, rfl, fun acc0 => Instruction.execute_loadImm16 .sp _ acc0 s⟩
  · exact ⟨_, rfl, rfl, fun acc0 => Instruction.execute_ldSpHl _ _ acc0 s⟩
  · exact ⟨_, rfl, rfl, fun acc0 => Instruction.execute_ldHlSpE8 _ _ acc0 s⟩
  · exact ⟨_, rfl, rfl, fun acc0 => Instruction.execute_ldA16Sp _ _ acc0 s⟩
  · exact ⟨_, rfl, rfl, fun acc0 => Instruction.execute_push .bc _ acc0 s⟩
  · exact ⟨_, rfl, rfl, fun acc0 => Instruction.execute_push .de _ acc0 s⟩
  · exact ⟨_, rfl, rfl, fun acc0 => Instruction.execute_push .hl _ acc0 s⟩
  · exact ⟨_, rfl, rfl, fun acc0 => Instruction.execute_push .af _ acc0 s⟩
  · exact ⟨_, rfl, rfl, fun acc0 => Instruction.execute_pop .bc _ acc0 s⟩
  · exact ⟨_, rfl, rfl, fun acc0 => Instruction.execute_pop .de _ acc0 s⟩
  · exact ⟨_, rfl, rfl, fun acc0 => Instruction.execute_pop .hl _ acc0 s⟩
  · exact ⟨_, rfl, rfl, fun acc0 => Instruction.execute_pop .af _ acc0 s⟩

/-- A lookup in the primary table finds each of its entries, since no byte has two. -/
theorem lookup_of_mem : ∀ x ∈ primaryTable, lookup x.1 false = some x.2 := by decide

/-- Every table entry is some instruction's, in every state. -/
theorem execute_of_mem {x : Byte × Instruction} (hx : x ∈ primaryTable) (s : State) :
    ∃ i, ∀ acc0, x.2.execute acc0 s = exec i s := by
  have hl := lookup_of_mem x hx
  have hrow : (instrOf x.1 s.fetchNext.1 s.fetchNext.2.fetchNext.1).isSome = true := by
    rw [instrOf_isSome, ← lookup_isSome, hl]
    rfl
  obtain ⟨i, hi⟩ := Option.isSome_iff_exists.1 hrow
  obtain ⟨y, hy, -, hexec⟩ := execute_of_instrOf hi
  cases hl.symm.trans hy
  exact ⟨i, hexec⟩

/-! ## The reference driver (R112) -/

theorem driverStep_of_fault {s : State} {x : FaultInfo} (h : s.fault = some x) (acc0 : Int) :
    driverStep acc0 s = .fault (.unsupportedOpcode x) := by
  simp only [driverStep, h]

theorem driverStep_of_prefix {s : State} (hs : s.fault = none) (hp : s.answer s.pc = prefixByte) (acc0 : Int) :
    driverStep acc0 s = .next (((s.beginStep.log (.read s.pc)).log (.read (s.pc + 1))).raiseUnsupported s.pc
      ((s.log (.read s.pc)).answer (s.pc + 1)) true) := by
  rw [← State.answer_log_beginStep]
  rw [← State.answer_beginStep] at hp
  simp only [driverStep, hs]
  exact if_pos hp

theorem driverStep_of_no_entry {s : State} (hs : s.fault = none) (hp : s.answer s.pc ≠ prefixByte)
    (hl : lookup (s.answer s.pc) false = none) (acc0 : Int) :
    driverStep acc0 s = .next ((s.beginStep.log (.read s.pc)).raiseUnsupported s.pc (s.answer s.pc) false) := by
  simp only [driverStep, hs, State.memRead_fst, State.memRead_snd, State.beginStep_pc, State.answer_beginStep, if_neg hp, hl]

theorem driverStep_of_entry {s : State} {x : Instruction} (hs : s.fault = none) (hp : s.answer s.pc ≠ prefixByte)
    (hl : lookup (s.answer s.pc) false = some x) (acc0 : Int) :
    driverStep acc0 s = finishDriver x (x.execute acc0 (s.beginStep.log (.read s.pc))) := by
  simp only [driverStep, hs, State.memRead_fst, State.memRead_snd, State.beginStep_pc, State.answer_beginStep, if_neg hp, hl]

/-- Both steps run one instruction where its entry is found, and there the entry's Operations do what its meaning does. -/
theorem step_eq_driverStep (acc0 : Int) (s : State) : step s = driverStep acc0 s := by
  cases hs : s.fault with
  | some x => rw [step_of_fault hs, driverStep_of_fault hs]
  | none =>
    rcases step_cases hs with ⟨i, t, -, hp, hi, ht, hstep⟩ | ⟨hp, hn, hstep⟩ | ⟨hp, hstep⟩
    · rw [← codeBytes_beginStep] at hi
      obtain ⟨x, hx, hcycles, hexec⟩ := execute_of_instrOf (s := s.beginStep.log (.read s.pc)) hi
      rw [State.codeBytes_fst, State.beginStep_pc, State.answer_beginStep] at hx
      rw [hstep, driverStep_of_entry hs hp hx, hexec, ht, finishDriver, hcycles]
    · rw [hstep, driverStep_of_no_entry hs hp ((formatOf_eq_none_iff _).1 hn)]
    · rw [hstep, driverStep_of_prefix hs hp]

/-! ## The statements -/

/-- Settles O23: the decoded instruction's meaning and its entry's Operations agree. -/
theorem stepAgreesWithReferenceDriver : Obligations.StepAgreesWithReferenceDriver := by
  unfold Obligations.StepAgreesWithReferenceDriver
  exact step_eq_driverStep

/-- Settles O37: a table entry does what its instruction's `exec` does, which has no accumulator; a primitive returns a byte, a
16-bit value or the accumulator it was given. -/
theorem initialAccumulatorNeverObserved : Obligations.InitialAccumulatorNeverObserved := by
  unfold Obligations.InitialAccumulatorNeverObserved
  refine ⟨fun x hx acc acc' s => ?_, fun op hop x y h0 h1 hy => ?_, fun rr x y h0 h1 hy => ?_⟩
  · obtain ⟨i, hi⟩ := execute_of_mem hx s
    rw [hi, hi]
  · simp only [List.mem_cons, List.not_mem_nil, or_false] at hop
    rcases hop with rfl | rfl | rfl | rfl | rfl | rfl | rfl | rfl | rfl
    all_goals cases hy
    · exact accOfByte_inRange _
    · exact accOfWord_inRange _
    · exact ⟨h0, h1⟩
    · exact ⟨h0, h1⟩
    · exact accOfByte_inRange _
    · exact accOfWord_inRange _
    · exact ⟨h0, h1⟩
    · exact ⟨h0, h1⟩
    · exact accOfWord_inRange _
  · rcases hy with hy | hy
    · cases hy
      exact accOfWord_inRange _
    · cases hy
      exact ⟨h0, h1⟩

/-- Settles O38: the field set is the one in the Context, and no entry's Operations read the Context. -/
theorem contextFieldsUnsetUntilSet : Obligations.ContextFieldsUnsetUntilSet := by
  unfold Obligations.ContextFieldsUnsetUntilSet
  refine ⟨fun _ _ _ => rfl, fun k j s acc => ?_, fun x hx acc s => ?_⟩
  · by_cases hjk : j = k
    · simp [runOps, MicroOp.run, hjk]
    · have hne : (j == k) = false := beq_false_of_ne hjk
      simp [runOps, MicroOp.run, List.lookup, hjk, hne]
  · obtain ⟨i, hi⟩ := execute_of_mem hx s
    obtain ⟨t, ht, -⟩ := exec_frame i s
    exact ⟨t, (hi acc).trans ht⟩

/-- Settles O39: the four branches of the two conditional Operations. -/
theorem conditionalOperationElides : Obligations.ConditionalOperationElides := by
  unfold Obligations.ConditionalOperationElides
  intro op y
  refine ⟨fun x v => ⟨fun h => ?_, fun h => ?_⟩, fun k v w h => ?_, fun k v h => ?_⟩
  · rw [MicroOp.run, if_pos h]
  · rw [MicroOp.run, if_neg h]
  · rw [MicroOp.run, h]
  · rw [MicroOp.run, h]

/-- Settles O40: each primitive's meaning, with its accumulator as a number. -/
theorem primitiveOperations : Obligations.PrimitiveOperations := by
  unfold Obligations.PrimitiveOperations
  intro s acc ctx
  refine ⟨⟨_, rfl, ?_, ?_⟩, ⟨_, rfl, ?_, ?_⟩, ⟨accHi acc, accLo acc, accHi_toNat acc, accLo_toNat acc, ?_, ?_⟩,
    fun _ => rfl, fun _ => ⟨accWord acc, accWord_toNat acc, rfl⟩⟩
  · rw [MicroOp.run, accOfByte_eq]
    rfl
  · rw [MicroOp.run, accOfWord_cat]
    rfl
  · rw [MicroOp.run, accOfByte_eq]
    rfl
  · rw [MicroOp.run, accOfWord_cat]
    rfl
  · rw [MicroOp.run, State.pushByte, State.memWrite_setSp]
    rfl
  · rw [MicroOp.run, State.pushByte, State.memWrite_setSp]
    rfl

/-- Settles O41: the address and the byte are the accumulator's low bits, and the sum is that of R138. -/
theorem storeAndAddPrimitives : Obligations.StoreAndAddPrimitives := by
  unfold Obligations.StoreAndAddPrimitives
  intro s acc ctx
  refine ⟨accWord acc, accLo acc, _, accWord_toNat acc, accLo_toNat acc, rfl, rfl, rfl, ?_⟩
  rw [MicroOp.run, State.setAddFlags_eq, State.setAddFlags_f_toNat, accOfWord, addSigned_toNat]

end Sys2Proof.Machine
end
